-- ==== Sys2Proof/Word.lean ====
section
/-! DEFINITION. The units of the machine: bytes, 32-bit words and byte strings of a fixed length
(spec/00_scope.md R8, R10; spec/41_arx_permutation.md R125). -/

namespace Sys2Proof

/-- A byte is 8 bits (R8). -/
abbrev Byte := BitVec 8

/-- A 32-bit word: a host bus datum (R60), a command word (R85), an element of the ARX matrix (R125). -/
abbrev Word := BitVec 32

/-- A byte string of the fixed length `n`; `B[i]` is its i-th byte (R8). -/
abbrev Bytes (n : Nat) := Vector Byte n

/-- `0^n`, the string of `n` zero bytes (R8). -/
def zeroBytes (n : Nat) : Bytes n := Vector.replicate n 0

/-- The 16-word matrix of the ARX pipeline; position i is row i div 4, column i mod 4 (R125). -/
abbrev Matrix := Vector Word 16

end Sys2Proof
end

