-- ==== Sys2Proof/Syntax.lean ====
section
/-! DEFINITION. The commands of CBOX-CMD version 1 (spec/30_encoding.md R88), the host's bus transactions
(spec/20_memory.md R60, R64) and the CBOX-ASM notation for host programs (spec/30_encoding.md R95-R104). -/

namespace Sys2Proof

/-- The eleven commands, one constructor for each row of the opcode map (R88). A command word has no register
field and no immediate (R86), so no constructor has an argument. -/
inductive Instr where
  | nop
  | agree
  | hkey
  | hsalsa
  | ksInit
  | ksOtk
  | ksXor
  | poly
  | sealBox
  | openBox
  | clear
deriving DecidableEq, Repr

/-- The width of a bus transaction; only 32 bits is legal (R64). -/
inductive Width where
  | w8
  | w16
  | w32
  | w64
deriving DecidableEq, Repr

/-- The two kinds of bus transaction (R60). The datum of a write wider or narrower than 32 bits never matters:
such an access is a bus error (R64, R65). -/
inductive Access where
  | read
  | write (v : Word)
deriving DecidableEq, Repr

/-- One transaction on the host bus: its byte address, width, enabled byte lanes (bit i enables lane i) and kind
(R60, R64). -/
structure BusOp where
  addr : Nat
  width : Width
  lanes : BitVec 4
  access : Access
deriving DecidableEq, Repr

/-- The response of a transaction that the CORE answers (R60). -/
inductive Resp where
  | okay
  | buserr
deriving DecidableEq, Repr

/-- The primitives a host program is encoded as (R104). `wr`, `rd` and `bnz` are R96, R97 and R98; offsets are
relative to BASE, and a host-side name is a number. DESIGN CHOICE (log entry 21): `rd` and `bnz` carry the host-side
name they give and test, which the encodings (R, off) and (B, mask, target index) of R97 and R104 leave out. `bus` is
the model's own constructor (log entry 14): any transaction at all, so that a host can issue the narrow, wide and
partial-lane accesses of R64. -/
inductive HostPrim where
  | wr (off : Nat) (v : Word)
  | rd (off : Nat) (name : Nat)
  | bnz (name : Nat) (mask : Word) (target : Nat)
  | bus (op : BusOp) (name : Nat)
deriving DecidableEq, Repr

/-- The register names of CBOX-ASM (R95). -/
inductive RegName where
  | id
  | ctrl
  | status
  | cmd
  | len
  | bufsz
  | ksoffLo
  | ksoffHi
  | sk
  | pk
  | nonce
  | ss
  | subkey
  | otk
  | buf
deriving DecidableEq, Repr

/-- A place in the window: a plain offset, or `NAME+k` (R95). -/
inductive Place where
  | off (a : Nat)
  | reg (r : RegName) (k : Nat)
deriving DecidableEq, Repr

/-- One item of a CBOX-ASM program: the primitives of R96-R98 with labels, the pseudo-instructions of R99-R103,
and `label`, the mark a BNZ names. -/
inductive AsmItem where
  | wr (p : Place) (v : Word)
  | rd (p : Place) (name : Nat)
  | bnz (name : Nat) (mask : Word) (label : Nat)
  | label (l : Nat)
  | cmd (i : Instr)
  | setb (p : Place) (bytes : List Byte)
  | wait (name : Nat)
  | getb (p : Place) (n : Nat) (name : Nat)
  | run (i : Instr) (name : Nat)
deriving DecidableEq, Repr

end Sys2Proof
end

