-- ==== Sys2Proof/WellFormed.lean ====
section
/-! DEFINITION. What makes a command, a command word, a host program and a CBOX-ASM program well formed
(spec/30_encoding.md R85, R88, R98, R100, R102). -/

namespace Sys2Proof

/-- Every command is well formed: it has no operand field that could be out of range (R86). -/
def Instr.wf : Instr → Bool
  | .nop => true
  | .agree => true
  | .hkey => true
  | .hsalsa => true
  | .ksInit => true
  | .ksOtk => true
  | .ksXor => true
  | .poly => true
  | .sealBox => true
  | .openBox => true
  | .clear => true

/-- The field MBZ, bits 31:8 of a command word, is zero (R85). -/
def mbzZero (w : Word) : Bool := w.extractLsb 31 8 == 0

/-- The field OP, bits 7:0 of a command word, names a row of the opcode map (R88, R89). -/
def opMapped (w : Word) : Bool := w.extractLsb 7 0 ≤ 0x09 || w.extractLsb 7 0 == 0x0F

/-- A command word that selects an operation (R88). -/
def commandWordWf (w : Word) : Bool := mbzZero w && opMapped w

/-- The host-side name that a primitive gives a value. -/
def HostPrim.defines : HostPrim → Option Nat
  | .wr _ _ => none
  | .rd _ name => some name
  | .bnz _ _ _ => none
  | .bus op name => if op.access = .read then some name else none

/-- Whether a primitive is well formed in the program `prog`: a BNZ tests a name that some primitive reads, and its
target is a line of the program or its end (R98). -/
def HostPrim.wf (prog : List HostPrim) : HostPrim → Bool
  | .wr _ _ => true
  | .rd _ _ => true
  | .bnz name _ target => decide (target ≤ prog.length) && prog.any (fun q => q.defines == some name)
  | .bus _ _ => true

/-- A host program whose every primitive is well formed. -/
def hostProgramWf (prog : List HostPrim) : Bool := prog.all (HostPrim.wf prog)

/-- Whether a CBOX-ASM item is well formed in the program `items`: SETB and GETB move a multiple of 4 bytes
(R100, R102), and a BNZ names a label of the program (R98). A label marked twice is not refused (log entry 20). -/
def AsmItem.wf (items : List AsmItem) : AsmItem → Bool
  | .wr _ _ => true
  | .rd _ _ => true
  | .bnz _ _ l => items.contains (.label l)
  | .label _ => true
  | .cmd i => i.wf
  | .setb _ bytes => bytes.length % 4 == 0
  | .wait _ => true
  | .getb _ n _ => n % 4 == 0
  | .run i _ => i.wf

/-- A CBOX-ASM program whose every item is well formed. -/
def asmWf (items : List AsmItem) : Bool := items.all (AsmItem.wf items)

end Sys2Proof
end

