-- ==== Sys2Proof/Decode.lean ====
section
/-! DEFINITION. The decoder and the encoder of command words (spec/30_encoding.md R85, R88, R89, R90, R93). -/

namespace Sys2Proof

/-- Why a command word is ILLEGAL (R93). -/
inductive DecodeReject where
  /-- Bits 31:8 are not all zero (R90). -/
  | mbzNotZero
  /-- Bits 31:8 are zero and OP is in 0x0A-0x0E or 0x10-0xFF (R89). -/
  | reservedOp
deriving DecidableEq, Repr

/-- What a command word decodes to: one of the eleven commands, or ILLEGAL with the reason (R93). -/
inductive Decoded where
  | command (i : Instr)
  | illegal (why : DecodeReject)
deriving DecidableEq, Repr

/-- The field MBZ of a command word (R85). -/
def fieldMbz (w : Word) : BitVec 24 := w.extractLsb' 8 24

/-- The field OP of a command word (R85). -/
def fieldOp (w : Word) : BitVec 8 := w.extractLsb' 0 8

/-- The row of the opcode map with the given OP (R88). -/
def decodeOp (op : BitVec 8) : Option Instr :=
  if op = 0x00 then some .nop
  else if op = 0x01 then some .agree
  else if op = 0x02 then some .hkey
  else if op = 0x03 then some .hsalsa
  else if op = 0x04 then some .ksInit
  else if op = 0x05 then some .ksOtk
  else if op = 0x06 then some .ksXor
  else if op = 0x07 then some .poly
  else if op = 0x08 then some .sealBox
  else if op = 0x09 then some .openBox
  else if op = 0x0F then some .clear
  else none

/-- `decode(w)` of R93: total on 32-bit words, the ILLEGAL outcome rejected by name. It reads the word alone (R87). -/
def decodeWord (w : Word) : Decoded :=
  if fieldMbz w = 0 then
    match decodeOp (fieldOp w) with
    | some i => .command i
    | none => .illegal .reservedOp
  else .illegal .mbzNotZero

/-- The OP of each command (R88). -/
def encodeOp : Instr → BitVec 8
  | .nop => 0x00
  | .agree => 0x01
  | .hkey => 0x02
  | .hsalsa => 0x03
  | .ksInit => 0x04
  | .ksOtk => 0x05
  | .ksXor => 0x06
  | .poly => 0x07
  | .sealBox => 0x08
  | .openBox => 0x09
  | .clear => 0x0F

/-- The command word of a command: OP in bits 7:0, MBZ zero (R85, R88). -/
def encode (i : Instr) : Word := (0 : BitVec 24) ++ encodeOp i

/-- The command the decoder reads from an instruction whose `nbits` low bits are `w`, every higher bit being zero.
A command is exactly one 32-bit word (R85), so a longer instruction with a bit above bit 31 is none. -/
def decodeTableWord (nbits w : Nat) : Option Instr :=
  if w % 2 ^ nbits < 2 ^ 32 then
    match decodeWord (BitVec.ofNat 32 (w % 2 ^ nbits)) with
    | .command i => some i
    | .illegal _ => none
  else none

end Sys2Proof
end

