-- ==== Sys2Proof/Config.lean ====
section
/-! DEFINITION. What an implementation fixes (spec/00_scope.md R7) and the values the spec leaves free
(spec/93_implementation_defined.md U1, U2). -/

namespace Sys2Proof

/-- The OPEN parameters of R7 that a model takes as arguments. Every value of this type is a legal
configuration, and every legal configuration is a value of it. LATENCY(op, LEN) is no field: it is
represented by the separate completion step (R240). -/
structure Params where
  /-- `BASE` in units of 4096 bytes, so that BASE is aligned to 4096 (R7, D2). -/
  basePage : Nat
  /-- `(BUF_BYTES - 16) / 4`, so that BUF_BYTES is a multiple of 4 with 16 ≤ BUF_BYTES ≤ 2^24 (R7, D3). -/
  bufExtraWords : Fin 4194301
  /-- `IRQ_ROUTE`: the line of the host's interrupt controller that `irq` drives (R217, D15). That it is a bare line
  number, with no controller, priority or conversion, is a DESIGN CHOICE (log entry 10). -/
  irqRoute : Nat
deriving DecidableEq, Repr

/-- `BASE`, the byte address of the window on the host bus (R7). -/
def Params.base (p : Params) : Nat := 4096 * p.basePage

/-- `BUF_BYTES`, the size of the message buffer in bytes (R7). -/
def Params.bufBytes (p : Params) : Nat := 16 + 4 * p.bufExtraWords.val

/-- `MAX_LEN = BUF_BYTES - 16`, the largest message length (R7). -/
def Params.maxLen (p : Params) : Nat := p.bufBytes - 16

/-- The window's size: `0x1000 + BUF_BYTES` bytes (R7). -/
def Params.windowBytes (p : Params) : Nat := 0x1000 + p.bufBytes

/-- The reference configuration of R7, BUF_BYTES = 1024. DESIGN CHOICE (unsafe, log entry 1): BASE = 0 and
IRQ_ROUTE = 0, which the spec leaves OPEN. -/
def Params.reference : Params := { basePage := 0, bufExtraWords := 252, irqRoute := 0 }

/-- The byte that `BUF[i]` holds after the `n`-th reset until something writes it: any value, drawn per byte and
per reset (R235, D28, U1, U2). A FREE VALUE (safe for one CORE, log entry 2). DESIGN CHOICE (unsafe for claims that
compare two COREs, log entry 22): it takes the reset's number and the index and nothing that names a CORE, so two
instances (R226) with one draw number, as two at `State.resetWith`, hold equal unwritten bytes, which the spec does not
say. -/
opaque Config.bufDraw : Nat → Nat → Byte

/-- What a host-side name of a CBOX-ASM program stands for before the program's first RD into it: the spec gives
it no value (R97, R98). A FREE VALUE (safe, log entry 3). -/
opaque Config.unreadName : Nat → Word

end Sys2Proof
end

