-- ==== Sys2Proof/Machine/State.lean ====
section
/-! DEFINITION. Everything the spec gives the machine, as plain data (spec/10_state.md), and its value right after
reset (spec/10_state.md R50, spec/70_reset_and_hazards.md R235). INVENTORY.md lists every field with its rule. -/

namespace Sys2Proof.Machine

/-- The result codes a completion can leave in STATUS.ERR (R210). The codes 7-15 are reserved and never produced,
so they have no constructor. -/
inductive ErrCode where
  | ok
  | invalidLength
  | lowOrder
  | authFailed
  | illegalCmd
  | noCursor
  | ksExhausted
deriving DecidableEq, Repr

/-- The register CTRL, offset 0x008 (R25). Bits 31:3 are reserved and hold nothing. -/
structure Ctrl where
  /-- Bit 0: irq is asserted while DONE = 1. -/
  ie : Bool
  /-- Bit 1: reject an all-zero X25519 result. -/
  lochk : Bool
  /-- Bit 2: SEAL and OPEN apply BoxKey. -/
  nacl : Bool
deriving DecidableEq, Repr

/-- The host-driven keystream cursor (R44). -/
structure Cursor where
  /-- CUR, which is STATUS bit 3 (R26). -/
  cur : Bool
  /-- KS_KEY, 32 bytes, not readable by the host. -/
  key : Bytes 32
  /-- KS_NONCE, 8 bytes, not readable by the host. -/
  nonce : Bytes 8
  /-- KS_OFF, 64 bits, read at KSOFF_LO and KSOFF_HI (R30). -/
  off : BitVec 64
deriving DecidableEq, Repr

/-- The message buffer BUF (R40). `cells` lists, by strictly rising index, the bytes written since reset; a byte not
listed is the value drawn for it by the reset numbered `draw` (R235). -/
structure Memory where
  cells : List Host.Cell
  draw : Nat
deriving DecidableEq, Repr

/-- What a command reads and what a snapshot holds (R91): CTRL, LEN, the operand register file (R20), the cursor
and BUF. -/
structure Operands where
  ctrl : Ctrl
  /-- LEN, 32 bits (R28). -/
  len : Word
  /-- SK, 32 bytes, write-only (R34). -/
  sk : Bytes 32
  /-- PK, 32 bytes (R35). -/
  pk : Bytes 32
  /-- NONCE, 24 bytes (R36). -/
  nonce : Bytes 24
  /-- SS, 32 bytes (R37). -/
  ss : Bytes 32
  /-- SUBKEY, 32 bytes (R38). -/
  subkey : Bytes 32
  /-- OTK, 32 bytes (R39). -/
  otk : Bytes 32
  cursor : Cursor
  buf : Memory
deriving DecidableEq, Repr

/-- The command an accept put into the engine, with the snapshot taken then (R46, R91). -/
structure Pending where
  word : Word
  snapshot : Operands
deriving DecidableEq, Repr

/-- The CORE. STATUS is held by its fields (R26): BUSY is whether a command is pending, CUR is the cursor's, and
DONE, WERR and ERR stand here. ID and BUFSZ are constants (R24, R29) and hold no state. -/
structure CoreState where
  data : Operands
  done : Bool
  werr : Bool
  err : ErrCode
  pending : Option Pending
deriving DecidableEq, Repr

/-- The host: its program (R104), its own program counter (R21), the words its reads returned, by name in rising
order (R97), and the response of its last transaction (R60, R65). -/
structure HostAgent where
  prog : List HostPrim
  pc : Nat
  names : List (Nat × Word)
  resp : Option Resp
deriving DecidableEq, Repr

/-- Who takes a step: the engine, the host (R18), or the environment, which drives the CORE's input `rst` to a level:
high asserts it, low releases it (R235, log entry 13). -/
inductive Turn where
  | engine
  | host
  | rst (level : Bool)
deriving DecidableEq, Repr

/-- The whole machine: the CORE in its configuration, the level of its input `rst` (R235), the host that drives it,
and the turns still to be taken in order. When no turn is listed, the engine goes first while BUSY = 1 and the host
otherwise (log entry 4). -/
structure State where
  cfg : Params
  core : CoreState
  rst : Bool
  host : HostAgent
  turns : List Turn
deriving DecidableEq, Repr

/-- Why the machine stops. -/
inductive Fault where
  /-- Raised by a host transaction at an address outside the window, which the CORE does not respond to (R66, U9):
  what the bus does then is the platform's. Safe: no claim follows about what the platform does. -/
  | outsideWindow
deriving DecidableEq, Repr

/-- Why an instruction has no meaning. -/
inductive Refusal where
  /-- Raised by an arm of exec for an instruction without a meaning; no arm of this model raises it. Safe. -/
  | notModelled (mnemonic : String)
deriving DecidableEq, Repr

/-- CTRL after reset: 0x00000004 (R25, R50). -/
def Ctrl.reset : Ctrl := { ie := false, lochk := false, nacl := true }

/-- The cursor after reset, and after CLEAR (R44, R50, R202). -/
def Cursor.reset : Cursor := { cur := false, key := zeroBytes 32, nonce := zeroBytes 8, off := 0 }

/-- BUF after the reset numbered `draw`: nothing written, every byte a fresh draw (R235). -/
def Memory.reset (draw : Nat) : Memory := { cells := [], draw := draw }

/-- CTRL, LEN, the operand registers, the cursor and BUF after the reset numbered `draw` (R50). -/
def Operands.reset (draw : Nat) : Operands :=
  { ctrl := Ctrl.reset
    len := 0
    sk := zeroBytes 32
    pk := zeroBytes 32
    nonce := zeroBytes 24
    ss := zeroBytes 32
    subkey := zeroBytes 32
    otk := zeroBytes 32
    cursor := Cursor.reset
    buf := Memory.reset draw }

/-- The CORE after the reset numbered `draw` (R50, R235): no pending command, STATUS zero. -/
def CoreState.reset (draw : Nat) : CoreState :=
  { data := Operands.reset draw, done := false, werr := false, err := .ok, pending := none }

/-- A host with no program: nothing is placed in the machine at reset (log entry 5). -/
def HostAgent.idle : HostAgent := { prog := [], pc := 0, names := [], resp := none }

/-- The machine right after reset in the configuration `p`, which R7 makes an argument of the model: `rst` has just
been released. -/
def State.resetWith (p : Params) : State :=
  { cfg := p, core := CoreState.reset 0, rst := false, host := HostAgent.idle, turns := [] }

/-- The machine right after reset in the reference configuration (R7, R50). -/
def State.reset : State := State.resetWith Params.reference

end Sys2Proof.Machine
end

