-- ==== Sys2Proof/Machine/Ops.lean ====
section
/-! DEFINITION. The operations every command and every bus access is built from: byte order (spec/00_scope.md R9,
spec/20_memory.md R61), sorted association lists, the message buffer (spec/20_memory.md R62), accept
(spec/30_encoding.md R91), completion with and without an error (R92, spec/60_exceptions.md R211, R212) and reset
(spec/70_reset_and_hazards.md R235). The CORE takes no traps (R218): completing with an error code is its only
exception, and there is no return from one (R219). -/

namespace Sys2Proof.Machine

/-! ## Byte order (R9) -/

/-- `le(B)`: the integer Σ B[i]·2^(8i) (R9). -/
def le : List Byte → Nat
  | [] => 0
  | b :: t => b.toNat + 256 * le t

/-- `le_bytes_n(v)`: the byte string with `B[i] = (v div 2^(8i)) mod 256` (R9). -/
def leBytes (n v : Nat) : Bytes n := Vector.ofFn fun i => BitVec.ofNat 8 (v / 2 ^ (8 * i.val))

/-- `w32(B, j)`, the j-th little-endian 32-bit word of `B` (R9). -/
def w32 (b : List Byte) (j : Nat) : Word := BitVec.ofNat 32 (le ((b.drop (4 * j)).take 4))

/-- `le_words(w_0, …)`, the words one after another, each as four bytes little-endian (R9). -/
def leWords (ws : List Word) : List Byte := ws.flatMap fun w => (leBytes 4 w.toNat).toList

/-- The half-open slice `B[start : start+len]` of a byte string (R8). -/
def bytesSlice {n : Nat} (b : Bytes n) (start len : Nat) (h : start + len ≤ n) : Bytes len :=
  Vector.ofFn fun i => b[start + i.val]

/-- The byte string `B` with its word at bytes 4j..4j+3 replaced by `v`, byte 4j getting bits 7:0 (R41, R61). A word
index past the end changes nothing. -/
def bytesSetWord {n : Nat} (b : Bytes n) (j : Nat) (v : Word) : Bytes n :=
  Vector.ofFn fun i => if i.val / 4 = j then v.extractLsb' (8 * (i.val % 4)) 8 else b[i]

/-- The first `n` bytes of a list as a byte string, zero past its end. -/
def bytesOfList (n : Nat) (l : List Byte) : Bytes n := Vector.ofFn fun i => l.getD i.val 0

/-- Bytewise exclusive-or of two strings of one length (R153). -/
def xorBytes (a b : List Byte) : List Byte := List.zipWith (· ^^^ ·) a b

/-! ## Association lists with strictly rising keys -/

/-- The value listed for a key. -/
def assocGet {α : Type} : List (Nat × α) → Nat → Option α
  | [], _ => none
  | (k, v) :: t, a => if a = k then some v else assocGet t a

/-- The list with `a` given the value `v`, its keys still rising. -/
def assocSet {α : Type} : List (Nat × α) → Nat → α → List (Nat × α)
  | [], a, v => [(a, v)]
  | (k, w) :: t, a, v =>
    if a < k then (a, v) :: (k, w) :: t
    else if a = k then (a, v) :: t
    else (k, w) :: assocSet t a v

/-- Whether every key of the list is at least `lo` and the keys are strictly rising. -/
def assocRisingFrom {α : Type} (lo : Nat) : List (Nat × α) → Bool
  | [] => true
  | (k, _) :: t => decide (lo ≤ k) && assocRisingFrom (k + 1) t

/-- Whether the keys of the list are strictly rising. -/
def assocRising {α : Type} (l : List (Nat × α)) : Bool := assocRisingFrom 0 l

/-! ## The message buffer (R40, R62) -/

/-- The canonical form of the buffer: the listed indices are strictly rising. An unlisted byte has no value of its
own (log entry 2), so no listed value can equal it. -/
def Memory.wf (m : Memory) : Bool := assocRising m.cells

/-- Whether every listed index is below `n`. -/
def Memory.within (n : Nat) (m : Memory) : Bool := m.cells.all fun c => decide (c.1 < n)

/-- `BUF[i]`: the byte written there since reset, or else the byte its reset drew (R235, U2). -/
def Memory.read (m : Memory) (i : Nat) : Byte := (assocGet m.cells i).getD (Config.bufDraw m.draw i)

/-- `BUF[i] <- b`. -/
def Memory.write (m : Memory) (i : Nat) (b : Byte) : Memory := { m with cells := assocSet m.cells i b }

/-- `BUF[start : start+n]`. -/
def Memory.slice (m : Memory) (start n : Nat) : List Byte := (List.range n).map fun j => m.read (start + j)

/-- `BUF[start : start+len(bs)] <- bs`. -/
def Memory.writeSlice (m : Memory) (start : Nat) : List Byte → Memory
  | [] => m
  | b :: t => Memory.writeSlice (m.write start b) (start + 1) t

/-- The word of BUF at bytes 4j..4j+3, little-endian (R61). -/
def Memory.readWord (m : Memory) (j : Nat) : Word := w32 (m.slice (4 * j) 4) 0

/-- `BUF[4j : 4j+4] <- le_bytes_4(v)` (R61). -/
def Memory.writeWord (m : Memory) (j : Nat) (v : Word) : Memory :=
  m.writeSlice (4 * j) (leBytes 4 v.toNat).toList

/-! ## Accept, completion and reset -/

/-- STATUS.BUSY: whether a command is pending (R26, R91, R92). -/
def CoreState.busy (c : CoreState) : Bool := c.pending.isSome

/-- Accept of the word `w` (R91): it becomes the pending command with a snapshot of the operands, BUSY rises, and
DONE and ERR are cleared. WERR and CUR are unchanged. -/
def CoreState.accept (c : CoreState) (w : Word) : CoreState :=
  { c with pending := some { word := w, snapshot := c.data }, done := false, err := .ok }

/-- Successful completion (R92): every data write is applied at once, BUSY falls, DONE rises and ERR is 0. -/
def CoreState.succeed (c : CoreState) (d : Operands) : CoreState :=
  { c with data := d, pending := none, done := true, err := .ok }

/-- Completion with an error (R211, R212): only STATUS is written; BUSY falls, DONE rises and ERR is the code. -/
def CoreState.fail (c : CoreState) (e : ErrCode) : CoreState :=
  { c with pending := none, done := true, err := e }

/-- The completion step for the outcome of a command's pseudocode: `complete` or `raise Err(code)` (R13, R211). -/
def CoreState.complete (c : CoreState) : Except ErrCode Operands → CoreState
  | .ok d => c.succeed d
  | .error e => c.fail e

/-- The operands the engine computes on (R13, R91): the pending command's snapshot. A command run with none pending
is accepted and completed in one, so its snapshot is the data as it stands. -/
def CoreState.snapshot (c : CoreState) : Operands :=
  match c.pending with
  | some p => p.snapshot
  | none => c.data

/-- What `rst` does to the CORE (R235, R236): every piece of the CORE's state takes its reset value, a pending command is
discarded without effect, and BUF is drawn afresh. -/
def CoreState.rst (c : CoreState) : CoreState := CoreState.reset (c.data.buf.draw + 1)

/-- The machine after the CORE completes the pending command with the given outcome. -/
def State.finish (s : State) (r : Except ErrCode Operands) : State := { s with core := s.core.complete r }

/-- The machine after the environment drives `rst` to a level (R235): asserting it, and releasing it where it was
asserted, puts the CORE into its reset state. Driving it low where it is low is no event. -/
def State.driveRst (s : State) (level : Bool) : State :=
  { s with rst := level, core := if level || s.rst then s.core.rst else s.core }

/-- What a step leaves while `rst` is asserted (R235): whatever the step did to the CORE, its state takes its reset
value. -/
def State.held (s : State) : State := if s.rst then { s with core := s.core.rst } else s

/-- A step's outcome under the level of `rst`. -/
def heldOutcome : Host.Outcome State Fault Refusal → Host.Outcome State Fault Refusal
  | .next s => .next s.held
  | .fault e => .fault e
  | .refused e => .refused e

/-- The machine after one listed turn is taken. -/
def State.dropTurn (s : State) : State := { s with turns := s.turns.tail }

end Sys2Proof.Machine
end

