-- ==== Sys2Proof/Machine/Curve.lean ====
section
/-! DEFINITION. The elliptic-curve scalar multiplier X25519 (spec/40_key_agreement.md R105-R117). -/

namespace Sys2Proof.Machine

/-- The field prime 2^255 - 19 (R11, R105). -/
def p25519 : Nat := 2 ^ 255 - 19

/-- The ladder constant a24 = (A - 2)/4 for A = 486662 (R105). -/
def a24 : Nat := 121665

/-- `clamp25519(K)` (R106). -/
def clamp25519 (k : Bytes 32) : Bytes 32 :=
  (k.set 0 (k[0] &&& 0xF8)).set 31 ((k[31] &&& 0x7F) ||| 0x40)

/-- `decode_u(U)`: bit 255 ignored, the value reduced (R107). -/
def decodeU (u : Bytes 32) : Nat := le u.toList % 2 ^ 255 % p25519

/-- Addition in the field (R108). -/
def fadd (a b : Nat) : Nat := (a + b) % p25519

/-- Subtraction in the field: the least non-negative residue of the exact difference (R108). -/
def fsub (a b : Nat) : Nat := (((a : Int) - (b : Int)) % (p25519 : Int)).toNat

/-- Multiplication in the field (R108). -/
def fmul (a b : Nat) : Nat := a * b % p25519

/-- `a^e mod m` for an exponent of at most `bits` bits, by squaring. -/
def powMod (m : Nat) : (bits a e : Nat) → Nat
  | 0, _, _ => 1 % m
  | bits + 1, a, e =>
    let h := powMod m bits (a * a % m) (e / 2)
    if e % 2 = 1 then a * h % m else h

/-- The inverse `a^(p25519 - 2) mod p25519` (R108). -/
def finv (a : Nat) : Nat := powMod p25519 255 a (p25519 - 2)

/-- `cswap(b, X, Y)` (R109). -/
def cswap (b : Bool) (x y : Nat) : Nat × Nat := if b then (y, x) else (x, y)

/-- The ladder's working values (R110). -/
structure Ladder where
  x2 : Nat
  z2 : Nat
  x3 : Nat
  z3 : Nat
  swap : Bool
deriving DecidableEq, Repr

/-- The two conditional swaps of R110, on the X values and on the Z values. -/
def ladderSwap (b : Bool) (l : Ladder) : Ladder :=
  let x := cswap b l.x2 l.x3
  let z := cswap b l.z2 l.z3
  { x2 := x.1, z2 := z.1, x3 := x.2, z3 := z.2, swap := l.swap }

/-- The field arithmetic of one ladder iteration (R110). -/
def ladderArith (x1 : Nat) (l : Ladder) : Ladder :=
  let a := fadd l.x2 l.z2
  let aa := fmul a a
  let b := fsub l.x2 l.z2
  let bb := fmul b b
  let e := fsub aa bb
  let c := fadd l.x3 l.z3
  let d := fsub l.x3 l.z3
  let da := fmul d a
  let cb := fmul c b
  { x2 := fmul aa bb
    z2 := fmul e (fadd aa (fmul a24 e))
    x3 := fmul (fadd da cb) (fadd da cb)
    z3 := fmul x1 (fmul (fsub da cb) (fsub da cb))
    swap := l.swap }

/-- One iteration of the loop of R110 for the scalar bit `kt`. -/
def ladderIter (x1 : Nat) (kt : Bool) (l : Ladder) : Ladder :=
  { ladderArith x1 (ladderSwap (l.swap ^^ kt) l) with swap := kt }

/-- The iterations for the bits t-1 down to 0 of `k` (R110). -/
def ladderLoop (k x1 : Nat) : (t : Nat) → Ladder → Ladder
  | 0, l => l
  | t + 1, l => ladderLoop k x1 t (ladderIter x1 (k.testBit t) l)

/-- `ladder(k, u)`: always 255 iterations, then the last swap and the division (R110). -/
@[irreducible] def ladder (k u : Nat) : Nat :=
  let l := ladderLoop k u 255 { x2 := 1, z2 := 0, x3 := u, z3 := 1, swap := false }
  let r := ladderSwap l.swap l
  fmul r.x2 (finv r.z2)

/-- `X25519(K, U)` (R113). -/
@[irreducible] def x25519 (k u : Bytes 32) : Bytes 32 := leBytes 32 (ladder (le (clamp25519 k).toList) (decodeU u))

/-- `ShareSecret(K, U, lochk)` (R117): with the check on, an all-zero result raises LOW_ORDER. -/
def shareSecret (k u : Bytes 32) (lochk : Bool) : Except ErrCode (Bytes 32) :=
  if lochk = true ∧ x25519 k u = zeroBytes 32 then .error .lowOrder else .ok (x25519 k u)

end Sys2Proof.Machine
end

