-- ==== Sys2Proof/Machine/Operands.lean ====
section
/-! DEFINITION. The operand forms of the commands (spec/30_encoding.md R86): every operand is a fixed register, a
fixed slice of NONCE or BUF, or LEN. -/

namespace Sys2Proof.Machine

/-- `NONCE[0:16]`, what the subkey derivation reads (R36). -/
def Operands.noncePrefix (d : Operands) : Bytes 16 := bytesSlice d.nonce 0 16 (by decide)

/-- `NONCE[16:24]`, what the keystream reads (R36). -/
def Operands.nonceSuffix (d : Operands) : Bytes 8 := bytesSlice d.nonce 16 8 (by decide)

/-- LEN as an unsigned byte count (R28, R86). -/
def Operands.length (d : Operands) : Nat := d.len.toNat

/-- The tag slot `BUF[0:16]` (R62). -/
def Operands.tagSlot (d : Operands) : List Byte := d.buf.slice 0 16

/-- The message `BUF[16:16+LEN]` (R62). -/
def Operands.message (d : Operands) : List Byte := d.buf.slice 16 d.length

/-- Whether LEN exceeds MAX_LEN = BUF_BYTES - 16, the cause of INVALID_LENGTH (R28, R210). -/
def Operands.tooLong (d : Operands) (cfg : Params) : Bool := decide (cfg.bufBytes - 16 < d.length)

/-- The operands with the message bytes `BUF[16:16+len(bs)]` replaced. -/
def Operands.withMessage (d : Operands) (bs : List Byte) : Operands := { d with buf := d.buf.writeSlice 16 bs }

/-- The operands with the tag slot `BUF[0:16]` replaced. -/
def Operands.withTag (d : Operands) (t : Bytes 16) : Operands := { d with buf := d.buf.writeSlice 0 t.toList }

end Sys2Proof.Machine
end

