-- ==== Sys2Proof/Machine/Poly1305.lean ====
section
/-! DEFINITION. The polynomial MAC over GF(2^130 - 5) (spec/43_poly1305.md R165-R171). -/

namespace Sys2Proof.Machine

/-- The prime 2^130 - 5 (R11, R165). -/
def p1305 : Nat := 2 ^ 130 - 5

/-- The clamp mask of r (R166). -/
def polyMask : Nat := 0x0ffffffc0ffffffc0ffffffc0fffffff

/-- `r`, the clamped first half of the one-time key (R166). -/
def polyR (otk : Bytes 32) : Nat := le (otk.toList.take 16) &&& polyMask

/-- `s`, the second half of the one-time key (R166). -/
def polyS (otk : Bytes 32) : Nat := le (otk.toList.drop 16)

/-- The blocks c_1 … c_q of a message, q = ceil(len/16); the last has 1 to 16 bytes (R167). -/
def polyBlocks (m : List Byte) : List (List Byte) :=
  (List.range ((m.length + 15) / 16)).map fun i => (m.drop (16 * i)).take 16

/-- The integer of a block, with one bit set just above its last byte (R168). -/
def polyBlockInt (c : List Byte) : Nat := le c + 2 ^ (8 * c.length)

/-- One accumulation (R169). -/
def polyStep (r acc : Nat) (c : List Byte) : Nat := (acc + polyBlockInt c) * r % p1305

/-- `Poly1305(OTK, m)` (R170, R171). -/
@[irreducible] def poly1305 (otk : Bytes 32) (m : List Byte) : Bytes 16 :=
  let acc := (polyBlocks m).foldl (polyStep (polyR otk)) 0
  leBytes 16 ((acc + polyS otk) % 2 ^ 128)

end Sys2Proof.Machine
end

