-- ==== Sys2Proof/Machine/Arx.lean ====
section
/-! DEFINITION. The ARX permutation pipeline and the subkey derivation HSalsa20
(spec/41_arx_permutation.md R125-R137). -/

namespace Sys2Proof.Machine

/-- `rotl(v, n)` (R10). -/
def rotl (v : Word) (n : Nat) : Word := (v <<< n) ||| (v >>> (32 - n))

/-- The quarter-round on positions (a, b, c, d), each step using what the steps before it left (R127). -/
def quarterRound (x : Matrix) (a b c d : Fin 16) : Matrix :=
  let x := x.set b (x[b] ^^^ rotl (x[a] + x[d]) 7)
  let x := x.set c (x[c] ^^^ rotl (x[b] + x[a]) 9)
  let x := x.set d (x[d] ^^^ rotl (x[c] + x[b]) 13)
  x.set a (x[a] ^^^ rotl (x[d] + x[c]) 18)

/-- The column round (R129). -/
def columnRound (x : Matrix) : Matrix :=
  let x := quarterRound x 0 4 8 12
  let x := quarterRound x 5 9 13 1
  let x := quarterRound x 10 14 2 6
  quarterRound x 15 3 7 11

/-- The row round (R130; 90_conflicts.md C2). -/
def rowRound (x : Matrix) : Matrix :=
  let x := quarterRound x 0 1 2 3
  let x := quarterRound x 5 6 7 4
  let x := quarterRound x 10 11 8 9
  quarterRound x 15 12 13 14

/-- The double round: the column round first (R131). -/
def doubleRound (x : Matrix) : Matrix := rowRound (columnRound x)

/-- `n` double rounds in sequence. -/
def doubleRounds : Nat → Matrix → Matrix
  | 0, x => x
  | n + 1, x => doubleRounds n (doubleRound x)

/-- `perm20`: ten double rounds, 80 quarter-rounds (R132, R133; 90_conflicts.md C1). -/
@[irreducible] def perm20 (x : Matrix) : Matrix := doubleRounds 10 x

/-- `salsa_init(K, N)`: the constants "expand 32-byte k" on the diagonal, the key at 1-4 and 11-14, the input at
6-9 (R134, R135). -/
def salsaInit (k : Bytes 32) (n : Bytes 16) : Matrix :=
  let kw := w32 k.toList
  let nw := w32 n.toList
  #v[0x61707865, kw 0, kw 1, kw 2,
     kw 3, 0x3320646e, nw 0, nw 1,
     nw 2, nw 3, 0x79622d32, kw 4,
     kw 5, kw 6, kw 7, 0x6b206574]

/-- `core(x, ff)`: the permutation, with the feedforward addition when `ff` holds (R126, R137). -/
def arxCore (x : Matrix) (ff : Bool) : Matrix :=
  let y := perm20 x
  if ff then Vector.zipWith (· + ·) y x else y

/-- `HSalsa20(K, N)`: no feedforward, the words at 0, 5, 10, 15, 6, 7, 8, 9 in that order (R136). -/
@[irreducible] def hsalsa20 (k : Bytes 32) (n : Bytes 16) : Bytes 32 :=
  let y := arxCore (salsaInit k n) false
  bytesOfList 32 (leWords [y[0], y[5], y[10], y[15], y[6], y[7], y[8], y[9]])

end Sys2Proof.Machine
end

