-- ==== Sys2Proof/Machine/Salsa.lean ====
section
/-! DEFINITION. The counter-mode keystream (spec/42_keystream.md R145-R151). -/

namespace Sys2Proof.Machine

/-- `block_init(K, N8, ctr)`: the nonce at positions 6-7, the 64-bit counter at 8-9, low word first (R146, R151). -/
def blockInit (k : Bytes 32) (n8 : Bytes 8) (ctr : Nat) : Matrix :=
  salsaInit k (bytesOfList 16 (n8.toList ++ (leBytes 8 ctr).toList))

/-- `salsa_block(K, N8, ctr)`: 64 bytes, with feedforward (R147). -/
@[irreducible] def salsaBlock (k : Bytes 32) (n8 : Bytes 8) (ctr : Nat) : Bytes 64 :=
  bytesOfList 64 (leWords (arxCore (blockInit k n8 ctr) true).toList)

/-- `count` blocks one after another, the first with counter `ctr` (R148). -/
def salsaBlocks (k : Bytes 32) (n8 : Bytes 8) : (ctr count : Nat) → List Byte
  | _, 0 => []
  | ctr, count + 1 => (salsaBlock k n8 ctr).toList ++ salsaBlocks k n8 (ctr + 1) count

/-- `Keystream(K, N8, off, n)`: the n bytes at absolute offsets off … off+n-1 of the concatenation of the blocks
0, 1, 2, … (R148, R149), cut out of the blocks that overlap them. -/
@[irreducible] def keystream (k : Bytes 32) (n8 : Bytes 8) (off n : Nat) : List Byte :=
  ((salsaBlocks k n8 (off / 64) ((off % 64 + n + 63) / 64)).drop (off % 64)).take n

end Sys2Proof.Machine
end

