-- ==== Sys2Proof/Machine/Box.lean ====
section
/-! DEFINITION. The authenticated-encryption orchestrator: SEAL and OPEN (spec/44_box.md R180-R190). -/

namespace Sys2Proof.Machine

/-- `ct_eq16(a, b)`: all 16 byte pairs are examined (R181). -/
def ctEq16 (a b : Bytes 16) : Bool :=
  (List.finRange 16).foldl (fun d i => d ||| (a[i] ^^^ b[i])) (0 : Byte) == 0

/-- `BoxKey(s, nacl)` (R182; 90_conflicts.md C3). -/
def boxKey (s : Bytes 32) (nacl : Bool) : Bytes 32 := if nacl then hsalsa20 s (zeroBytes 16) else s

/-- The private keystream of SEAL and OPEN for the shared secret `s`: BoxKey, the subkey, then 32 + LEN bytes from
offset 0 (R184 steps 2 and 3, R164). -/
def boxKeystream (snap : Operands) (s : Bytes 32) : List Byte :=
  keystream (hsalsa20 (boxKey s snap.ctrl.nacl) snap.noncePrefix) snap.nonceSuffix 0 (32 + snap.length)

/-- The one-time key, the first 32 bytes of the private keystream (R184 step 4). -/
def boxOtk (z : List Byte) : Bytes 32 := bytesOfList 32 (z.take 32)

/-- The message combined with the private keystream from offset 32 on (R184 step 5, R186(b)). -/
def boxCipher (snap : Operands) (z : List Byte) : List Byte := xorBytes snap.message (z.drop 32)

/-- SEAL's pseudocode (R184). -/
def sealBody (cfg : Params) (snap live : Operands) : Except ErrCode Operands :=
  if snap.tooLong cfg = true then .error .invalidLength
  else match shareSecret snap.sk snap.pk snap.ctrl.lochk with
    | .error e => .error e
    | .ok s =>
      let z := boxKeystream snap s
      let c := boxCipher snap z
      .ok ((live.withTag (poly1305 (boxOtk z) c)).withMessage c)

/-- SEAL (R184). -/
def execSeal (s : State) : Host.Outcome State Fault Refusal :=
  .next (s.finish (sealBody s.cfg s.core.snapshot s.core.data))

/-- OPEN's pseudocode: the tag is recomputed over the received ciphertext, and only where it equals the received one
is the message decrypted (R188, R189). -/
def openBody (cfg : Params) (snap live : Operands) : Except ErrCode Operands :=
  if snap.tooLong cfg = true then .error .invalidLength
  else match shareSecret snap.sk snap.pk snap.ctrl.lochk with
    | .error e => .error e
    | .ok s =>
      let z := boxKeystream snap s
      if ctEq16 (poly1305 (boxOtk z) snap.message) (bytesOfList 16 snap.tagSlot) = true then
        .ok (live.withMessage (boxCipher snap z))
      else .error .authFailed

/-- OPEN (R188). -/
def execOpen (s : State) : Host.Outcome State Fault Refusal :=
  .next (s.finish (openBody s.cfg s.core.snapshot s.core.data))

end Sys2Proof.Machine
end

