-- ==== Sys2Proof/Machine/Control.lean ====
section
/-! DEFINITION. The commands NOP and CLEAR, and the completion of an illegal command word
(spec/45_control.md R200-R205). -/

namespace Sys2Proof.Machine

/-- NOP's pseudocode: `complete` (R200). -/
def nopBody (live : Operands) : Except ErrCode Operands := .ok live

/-- NOP (R200). -/
def execNop (s : State) : Host.Outcome State Fault Refusal := .next (s.finish (nopBody s.core.data))

/-- CLEAR's pseudocode: the key material takes its reset value; CTRL, LEN and BUF do not change (R202, R203). -/
def clearBody (live : Operands) : Except ErrCode Operands :=
  .ok { live with
    sk := zeroBytes 32
    pk := zeroBytes 32
    nonce := zeroBytes 24
    ss := zeroBytes 32
    subkey := zeroBytes 32
    otk := zeroBytes 32
    cursor := { cur := false, key := zeroBytes 32, nonce := zeroBytes 8, off := 0 } }

/-- CLEAR (R202). -/
def execClear (s : State) : Host.Outcome State Fault Refusal := .next (s.finish (clearBody s.core.data))

/-- The completion of a word that decodes as ILLEGAL: `raise Err(ILLEGAL_CMD)` (R204). -/
def completeIllegal (s : State) : Host.Outcome State Fault Refusal := .next (s.finish (.error .illegalCmd))

end Sys2Proof.Machine
end

