-- ==== Sys2Proof/Machine/KeyAgreement.lean ====
section
/-! DEFINITION. The command AGREE (spec/40_key_agreement.md R119, R120). -/

namespace Sys2Proof.Machine

/-- AGREE's pseudocode: `SS <- ShareSecret(SK, PK, CTRL.LOCHK)` (R119). -/
def agreeBody (snap live : Operands) : Except ErrCode Operands :=
  match shareSecret snap.sk snap.pk snap.ctrl.lochk with
  | .ok s => .ok { live with ss := s }
  | .error e => .error e

/-- AGREE (R119). -/
def execAgree (s : State) : Host.Outcome State Fault Refusal :=
  .next (s.finish (agreeBody s.core.snapshot s.core.data))

end Sys2Proof.Machine
end

