-- ==== Sys2Proof/Machine/Keystream.lean ====
section
/-! DEFINITION. The host-driven cursor and its commands KS_INIT, KS_OTK and KS_XOR
(spec/42_keystream.md R154-R161). -/

namespace Sys2Proof.Machine

/-- The next `n` keystream bytes of a cursor (R154). -/
def Cursor.emit (c : Cursor) (n : Nat) : List Byte := keystream c.key c.nonce c.off.toNat n

/-- Whether emitting `n` bytes would take KS_OFF to 2^64 or beyond, computed exactly (R159; 90_conflicts.md C8). -/
def Cursor.exhausted (c : Cursor) (n : Nat) : Bool := decide (2 ^ 64 ≤ c.off.toNat + n)

/-- KS_INIT's pseudocode (R155). -/
def ksInitBody (snap live : Operands) : Except ErrCode Operands :=
  .ok { live with cursor := { cur := true, key := snap.subkey, nonce := snap.nonceSuffix, off := 0 } }

/-- KS_INIT (R155). -/
def execKsInit (s : State) : Host.Outcome State Fault Refusal :=
  .next (s.finish (ksInitBody s.core.snapshot s.core.data))

/-- KS_OTK's pseudocode (R156). -/
def ksOtkBody (snap live : Operands) : Except ErrCode Operands :=
  if snap.cursor.cur = false then .error .noCursor
  else if snap.cursor.exhausted 32 = true then .error .ksExhausted
  else .ok { live with
    otk := bytesOfList 32 (snap.cursor.emit 32)
    cursor := { live.cursor with off := snap.cursor.off + 32 } }

/-- KS_OTK (R156). -/
def execKsOtk (s : State) : Host.Outcome State Fault Refusal :=
  .next (s.finish (ksOtkBody s.core.snapshot s.core.data))

/-- KS_XOR's pseudocode, its errors in the order it tests them (R157, R214). -/
def ksXorBody (cfg : Params) (snap live : Operands) : Except ErrCode Operands :=
  if snap.tooLong cfg = true then .error .invalidLength
  else if snap.cursor.cur = false then .error .noCursor
  else if snap.cursor.exhausted snap.length = true then .error .ksExhausted
  else .ok { live with
    buf := live.buf.writeSlice 16 (xorBytes snap.message (snap.cursor.emit snap.length))
    cursor := { live.cursor with off := snap.cursor.off + BitVec.ofNat 64 snap.length } }

/-- KS_XOR (R157). -/
def execKsXor (s : State) : Host.Outcome State Fault Refusal :=
  .next (s.finish (ksXorBody s.cfg s.core.snapshot s.core.data))

end Sys2Proof.Machine
end

