-- ==== Sys2Proof/Machine/Mac.lean ====
section
/-! DEFINITION. The command POLY (spec/43_poly1305.md R172, R173). -/

namespace Sys2Proof.Machine

/-- POLY's pseudocode: `BUF[0:16] <- Poly1305(OTK, BUF[16:16+LEN])` (R172). -/
def polyBody (cfg : Params) (snap live : Operands) : Except ErrCode Operands :=
  if snap.tooLong cfg = true then .error .invalidLength
  else .ok (live.withTag (poly1305 snap.otk snap.message))

/-- POLY (R172). -/
def execPoly (s : State) : Host.Outcome State Fault Refusal :=
  .next (s.finish (polyBody s.cfg s.core.snapshot s.core.data))

end Sys2Proof.Machine
end

