-- ==== Sys2Proof/Machine/Subkey.lean ====
section
/-! DEFINITION. The commands HSALSA and HKEY (spec/41_arx_permutation.md R139, R140). -/

namespace Sys2Proof.Machine

/-- HSALSA's pseudocode: `SUBKEY <- HSalsa20(SS, NONCE[0:16])` (R139). -/
def hsalsaBody (snap live : Operands) : Except ErrCode Operands :=
  .ok { live with subkey := hsalsa20 snap.ss snap.noncePrefix }

/-- HSALSA (R139). -/
def execHsalsa (s : State) : Host.Outcome State Fault Refusal :=
  .next (s.finish (hsalsaBody s.core.snapshot s.core.data))

/-- HKEY's pseudocode: `SS <- HSalsa20(SS, 0^16)`, computed from the snapshot (R140). -/
def hkeyBody (snap live : Operands) : Except ErrCode Operands :=
  .ok { live with ss := hsalsa20 snap.ss (zeroBytes 16) }

/-- HKEY (R140). -/
def execHkey (s : State) : Host.Outcome State Fault Refusal :=
  .next (s.finish (hkeyBody s.core.snapshot s.core.data))

end Sys2Proof.Machine
end

