-- ==== Sys2Proof/Machine/Dispatch.lean ====
section
/-! DEFINITION. One arm for each command of spec/opcode_table.json. -/

namespace Sys2Proof.Machine

def exec (i : Instr) (s : State) : Host.Outcome State Fault Refusal :=
  match i with
  | .nop => Sys2Proof.Machine.execNop s
  | .agree => Sys2Proof.Machine.execAgree s
  | .hkey => Sys2Proof.Machine.execHkey s
  | .hsalsa => Sys2Proof.Machine.execHsalsa s
  | .ksInit => Sys2Proof.Machine.execKsInit s
  | .ksOtk => Sys2Proof.Machine.execKsOtk s
  | .ksXor => Sys2Proof.Machine.execKsXor s
  | .poly => Sys2Proof.Machine.execPoly s
  | .sealBox => Sys2Proof.Machine.execSeal s
  | .openBox => Sys2Proof.Machine.execOpen s
  | .clear => Sys2Proof.Machine.execClear s

end Sys2Proof.Machine
end

