-- ==== Sys2Proof/Machine/Flags.lean ====
section
/-! DEFINITION. The CORE's flags and control fields as the host reads and writes them: CTRL (spec/10_state.md R25),
STATUS (R26, R31), the error codes (spec/60_exceptions.md R210) and the interrupt output (R216). -/

namespace Sys2Proof.Machine

/-- The 4-bit value of a result code in STATUS.ERR (R210). -/
def ErrCode.code : ErrCode → BitVec 4
  | .ok => 0
  | .invalidLength => 1
  | .lowOrder => 2
  | .authFailed => 3
  | .illegalCmd => 4
  | .noCursor => 5
  | .ksExhausted => 6

/-- CTRL as a read returns it: IE in bit 0, LOCHK in bit 1, NACL in bit 2, the reserved bits zero (R25). -/
def Ctrl.toWord (c : Ctrl) : Word :=
  (0 : BitVec 29) ++ BitVec.ofBool c.nacl ++ BitVec.ofBool c.lochk ++ BitVec.ofBool c.ie

/-- CTRL after the word `v` is written: reserved bits are ignored (R25). -/
def Ctrl.ofWord (v : Word) : Ctrl :=
  { ie := v.getLsbD 0, lochk := v.getLsbD 1, nacl := v.getLsbD 2 }

/-- STATUS as a read returns it: BUSY, DONE, WERR, CUR in bits 0 to 3, ERR in bits 7:4, the rest zero (R26). -/
def CoreState.statusWord (c : CoreState) : Word :=
  (0 : BitVec 24) ++ c.err.code ++ BitVec.ofBool c.data.cursor.cur ++ BitVec.ofBool c.werr
    ++ BitVec.ofBool c.done ++ BitVec.ofBool c.busy

/-- A host write of `v` to STATUS: it clears DONE where bit 1 is 1 and WERR where bit 2 is 1, and nothing else (R26). -/
def CoreState.writeStatus (c : CoreState) (v : Word) : CoreState :=
  { c with done := c.done && !v.getLsbD 1, werr := c.werr && !v.getLsbD 2 }

/-- A host write dropped because BUSY = 1 (R241): it sets WERR and has no other effect. -/
def CoreState.dropWrite (c : CoreState) : CoreState := { c with werr := true }

/-- `irq = CTRL.IE AND STATUS.DONE` (R216). -/
def CoreState.irq (c : CoreState) : Bool := c.data.ctrl.ie && c.done

/-- Whether line `n` of the host's interrupt controller is driven high by this CORE (R217, IRQ_ROUTE). DESIGN CHOICE
(log entry 10): of what IRQ_ROUTE leaves open, the route is one line number of one controller, with no priority, and the
level of `irq` reaches the line unconverted. -/
def State.irqLine (s : State) (n : Nat) : Bool := n == s.cfg.irqRoute && s.core.irq

end Sys2Proof.Machine
end

