-- ==== Sys2Proof/Machine/Bus.lean ====
section
/-! DEFINITION. The CORE's host port: the register map (spec/10_state.md R22, R23, R49), reads, writes
(spec/20_memory.md R60-R69) and what BUSY does to them (spec/70_reset_and_hazards.md R241, R242). -/

namespace Sys2Proof.Machine

/-- What stands at a word offset of the window; `j` is the word's index inside a byte array (R22, R41). -/
inductive Port where
  | id
  | ctrl
  | status
  | cmd
  | len
  | bufsz
  | ksoffLo
  | ksoffHi
  | sk (j : Nat)
  | pk (j : Nat)
  | nonce (j : Nat)
  | ss (j : Nat)
  | subkey (j : Nat)
  | otk (j : Nat)
  | buf (j : Nat)
  | reserved
deriving DecidableEq, Repr

/-- The register map (R22). Every offset below 0x1000 that no row names is reserved (R23). -/
def portAt (a : Nat) : Port :=
  if 0x1000 ≤ a then .buf ((a - 0x1000) / 4)
  else if 0x100 ≤ a then .reserved
  else if 0x0E0 ≤ a then .otk ((a - 0x0E0) / 4)
  else if 0x0C0 ≤ a then .subkey ((a - 0x0C0) / 4)
  else if 0x0A0 ≤ a then .ss ((a - 0x0A0) / 4)
  else if 0x098 ≤ a then .reserved
  else if 0x080 ≤ a then .nonce ((a - 0x080) / 4)
  else if 0x060 ≤ a then .pk ((a - 0x060) / 4)
  else if 0x040 ≤ a then .sk ((a - 0x040) / 4)
  else if a = 0x024 then .ksoffHi
  else if a = 0x020 then .ksoffLo
  else if a = 0x018 then .bufsz
  else if a = 0x014 then .len
  else if a = 0x010 then .cmd
  else if a = 0x00C then .status
  else if a = 0x008 then .ctrl
  else if a = 0x000 then .id
  else .reserved

/-- The constant of the register ID, "CBOX" in little-endian order (R24). -/
def idWord : Word := 0x584F4243

/-- A read while BUSY = 0 (R22, R61): CMD, SK and reserved offsets read as zero (R23, R27, R34). -/
def CoreState.readIdle (c : CoreState) (cfg : Params) : Port → Word
  | .id => idWord
  | .ctrl => c.data.ctrl.toWord
  | .status => c.statusWord
  | .cmd => 0
  | .len => c.data.len
  | .bufsz => BitVec.ofNat 32 cfg.bufBytes
  | .ksoffLo => c.data.cursor.off.extractLsb' 0 32
  | .ksoffHi => c.data.cursor.off.extractLsb' 32 32
  | .sk _ => 0
  | .pk j => w32 c.data.pk.toList j
  | .nonce j => w32 c.data.nonce.toList j
  | .ss j => w32 c.data.ss.toList j
  | .subkey j => w32 c.data.subkey.toList j
  | .otk j => w32 c.data.otk.toList j
  | .buf j => c.data.buf.readWord j
  | .reserved => 0

/-- The ports that read their current value even while BUSY = 1 (R49). -/
def Port.readableWhileBusy : Port → Bool
  | .id => true
  | .ctrl => true
  | .status => true
  | .len => true
  | .bufsz => true
  | .cmd => false
  | .ksoffLo => false
  | .ksoffHi => false
  | .sk _ => false
  | .pk _ => false
  | .nonce _ => false
  | .ss _ => false
  | .subkey _ => false
  | .otk _ => false
  | .buf _ => false
  | .reserved => false

/-- The word a legal read returns (R49, R242): while BUSY = 1 every other port reads as zero. It changes no state
(R68). -/
def CoreState.readPort (c : CoreState) (cfg : Params) (p : Port) : Word :=
  if c.busy && !p.readableWhileBusy then 0 else c.readIdle cfg p

/-- A write while BUSY = 0 to a port other than STATUS (R22, R69): CMD accepts a command (R91), read-only and
reserved ports ignore it (R23, R33). -/
def CoreState.writeIdle (c : CoreState) (v : Word) : Port → CoreState
  | .id => c
  | .ctrl => { c with data := { c.data with ctrl := Ctrl.ofWord v } }
  | .status => c.writeStatus v
  | .cmd => c.accept v
  | .len => { c with data := { c.data with len := v } }
  | .bufsz => c
  | .ksoffLo => c
  | .ksoffHi => c
  | .sk j => { c with data := { c.data with sk := bytesSetWord c.data.sk j v } }
  | .pk j => { c with data := { c.data with pk := bytesSetWord c.data.pk j v } }
  | .nonce j => { c with data := { c.data with nonce := bytesSetWord c.data.nonce j v } }
  | .ss j => { c with data := { c.data with ss := bytesSetWord c.data.ss j v } }
  | .subkey j => { c with data := { c.data with subkey := bytesSetWord c.data.subkey j v } }
  | .otk j => { c with data := { c.data with otk := bytesSetWord c.data.otk j v } }
  | .buf j => { c with data := { c.data with buf := c.data.buf.writeWord j v } }
  | .reserved => c

/-- A legal write (R26, R241): STATUS takes it always; any other port drops it while BUSY = 1 and sets WERR. -/
def CoreState.writePort (c : CoreState) (v : Word) (p : Port) : CoreState :=
  if p = .status then c.writeStatus v
  else if c.busy then c.dropWrite
  else c.writeIdle v p

/-- The byte offset of a bus address inside the window at BASE; none where the address is outside the window, which
the CORE does not respond to (R43, R66). -/
def windowOffset (cfg : Params) (addr : Nat) : Option Nat :=
  if cfg.base ≤ addr ∧ addr - cfg.base < cfg.windowBytes then some (addr - cfg.base) else none

/-- Whether a transaction at the window offset `a` is legal: aligned, 32 bits wide, all four lanes enabled (R60, R63,
R64). -/
def busLegal (op : BusOp) (a : Nat) : Bool :=
  a % 4 == 0 && op.width == .w32 && op.lanes == 0xF

/-- What a transaction leaves and returns: the CORE, the datum (zero for a write) and the response. -/
structure BusResult where
  core : CoreState
  data : Word
  resp : Resp
deriving DecidableEq, Repr

/-- A transaction on the CORE's port (R60): none where the CORE does not respond (R66), BUSERR with datum 0 and no
effect where it is illegal (R65), and otherwise the access to the register or BUF word at its offset. -/
def CoreState.transact (c : CoreState) (cfg : Params) (op : BusOp) : Option BusResult :=
  match windowOffset cfg op.addr with
  | none => none
  | some a =>
    if busLegal op a then
      match op.access with
      | .read => some { core := c, data := c.readPort cfg (portAt a), resp := .okay }
      | .write v => some { core := c.writePort v (portAt a), data := 0, resp := .okay }
    else some { core := c, data := 0, resp := .buserr }

/-- The transaction `MemRead(a, 4)` (R60). -/
def memRead (cfg : Params) (a : Nat) : BusOp :=
  { addr := cfg.base + a, width := .w32, lanes := 0xF, access := .read }

/-- The transaction `MemWrite(a, 4, v)` (R60). -/
def memWrite (cfg : Params) (a : Nat) (v : Word) : BusOp :=
  { addr := cfg.base + a, width := .w32, lanes := 0xF, access := .write v }

end Sys2Proof.Machine
end

