-- ==== Sys2Proof/Machine/HostSide.lean ====
section
/-! DEFINITION. The host: the offsets of the register names, the expansion of CBOX-ASM into primitives
(spec/30_encoding.md R95-R104) and one host step (spec/00_scope.md R18). -/

namespace Sys2Proof.Machine

/-- The offset a register name stands for (R95). -/
def regOffset : RegName → Nat
  | .id => 0x000
  | .ctrl => 0x008
  | .status => 0x00C
  | .cmd => 0x010
  | .len => 0x014
  | .bufsz => 0x018
  | .ksoffLo => 0x020
  | .ksoffHi => 0x024
  | .sk => 0x040
  | .pk => 0x060
  | .nonce => 0x080
  | .ss => 0x0A0
  | .subkey => 0x0C0
  | .otk => 0x0E0
  | .buf => 0x1000

/-- The offset of a place; `NAME+k` is the name's offset plus k (R95). -/
def placeOffset : Place → Nat
  | .off a => a
  | .reg r k => regOffset r + k

/-- The primitives SETB writes the bytes with: one WR for each four of them, in increasing order (R100). -/
def expandSetb (a : Nat) (bytes : List Byte) : List HostPrim :=
  (List.range (bytes.length / 4)).map fun j => .wr (a + 4 * j) (w32 bytes j)

/-- The primitives GETB reads n bytes with: one RD for each word, the j-th into the name `name + j` (R102; log
entry 6). -/
def expandGetb (a n name : Nat) : List HostPrim :=
  (List.range (n / 4)).map fun j => .rd (a + 4 * j) (name + j)

/-- WAIT, standing at line `line` of the program (R101). -/
def expandWait (line name : Nat) : List HostPrim :=
  [.rd (regOffset .status) name, .bnz name 0x1 line]

/-- `CMD MNEMONIC` (R99). -/
def expandCmd (i : Instr) : List HostPrim := [.wr (regOffset .cmd) (encode i)]

/-- How many primitives an item expands to. -/
def itemLines : AsmItem → Nat
  | .wr _ _ => 1
  | .rd _ _ => 1
  | .bnz _ _ _ => 1
  | .label _ => 0
  | .cmd _ => 1
  | .setb _ bytes => bytes.length / 4
  | .wait _ => 2
  | .getb _ n _ => n / 4
  | .run _ _ => 3

/-- The line a label marks, the items starting at line `line`. DESIGN CHOICE (log entry 20): the spec does not say which
line a label stands for that a program marks twice (R98), and the model takes the first. -/
def labelLine (l : Nat) : (line : Nat) → List AsmItem → Option Nat
  | _, [] => none
  | line, it :: rest => if it = .label l then some line else labelLine l (line + itemLines it) rest

/-- The primitives of one item that stands at line `line` of the program `all` (R96-R103); none for a BNZ to a label
the program does not hold. -/
def expandItem (all : List AsmItem) (line : Nat) : AsmItem → Option (List HostPrim)
  | .wr p v => some [.wr (placeOffset p) v]
  | .rd p name => some [.rd (placeOffset p) name]
  | .bnz name mask l => (labelLine l 0 all).map fun t => [.bnz name mask t]
  | .label _ => some []
  | .cmd i => some (expandCmd i)
  | .setb p bytes => some (expandSetb (placeOffset p) bytes)
  | .wait name => some (expandWait line name)
  | .getb p n name => some (expandGetb (placeOffset p) n name)
  | .run i name => some (expandCmd i ++ expandWait (line + 1) name)

/-- The primitives of the items from line `line` on. -/
def expandFrom (all : List AsmItem) : (line : Nat) → List AsmItem → Option (List HostPrim)
  | _, [] => some []
  | line, it :: rest =>
    match expandItem all line it, expandFrom all (line + itemLines it) rest with
    | some ps, some qs => some (ps ++ qs)
    | _, _ => none

/-- The encoding of a CBOX-ASM program: the list of its expanded primitives (R104). -/
def assemble (items : List AsmItem) : Option (List HostPrim) := expandFrom items 0 items

/-- The word a host-side name stands for: what the last RD into it returned, and before the first any value (R97;
log entry 3). -/
def HostAgent.word (h : HostAgent) (name : Nat) : Word := (assocGet h.names name).getD (Config.unreadName name)

/-- The byte string a GETB of n bytes into `name` joined, little-endian (R102). -/
def HostAgent.bytes (h : HostAgent) (name n : Nat) : List Byte :=
  leWords ((List.range (n / 4)).map fun j => h.word (name + j))

/-- The host after it moves on to the program line `pc`. -/
def HostAgent.goto (h : HostAgent) (pc : Nat) : HostAgent := { h with pc := pc }

/-- The host after a transaction that returned a datum for a name. -/
def HostAgent.gotWord (h : HostAgent) (name : Nat) (v : Word) (r : Resp) : HostAgent :=
  { h with pc := h.pc + 1, names := assocSet h.names name v, resp := some r }

/-- The host after a write transaction. -/
def HostAgent.gotResp (h : HostAgent) (r : Resp) : HostAgent := { h with pc := h.pc + 1, resp := some r }

/-- The host after any transaction: a read gives the name its datum, a write gives it nothing. -/
def HostAgent.gotAccess (h : HostAgent) (k : Access) (name : Nat) (v : Word) (r : Resp) : HostAgent :=
  match k with
  | .read => h.gotWord name v r
  | .write _ => h.gotResp r

/-- One host step: the primitive at the host's program counter (R18, R96-R98). A host whose program has ended does
nothing. A transaction outside the window is a fault (R66). -/
def hostStep (s : State) : Host.Outcome State Fault Refusal :=
  match s.host.prog[s.host.pc]? with
  | none => .next s
  | some (.wr off v) =>
    match s.core.transact s.cfg (memWrite s.cfg off v) with
    | none => .fault .outsideWindow
    | some r => .next { s with core := r.core, host := s.host.gotResp r.resp }
  | some (.rd off name) =>
    match s.core.transact s.cfg (memRead s.cfg off) with
    | none => .fault .outsideWindow
    | some r => .next { s with core := r.core, host := s.host.gotWord name r.data r.resp }
  | some (.bnz name mask target) =>
    if s.host.word name &&& mask = 0 then .next { s with host := s.host.goto (s.host.pc + 1) }
    else .next { s with host := s.host.goto target }
  | some (.bus op name) =>
    match s.core.transact s.cfg op with
    | none => .fault .outsideWindow
    | some r => .next { s with core := r.core, host := s.host.gotAccess op.access name r.data r.resp }

/-- The machine with a host program placed in the host, to be run from its first line. -/
def State.withProgram (s : State) (prog : List HostPrim) : State := { s with host := { s.host with prog := prog, pc := 0 } }

end Sys2Proof.Machine
end

