-- ==== Sys2Proof/Machine/Step.lean ====
section
/-! DEFINITION. One step of the whole machine (spec/00_scope.md R18): the engine's completion step
(spec/30_encoding.md R92, R93), a host step, or a change of the input rst, whose level holds the CORE in its reset state
(spec/70_reset_and_hazards.md R235). -/

namespace Sys2Proof.Machine

/-- The engine's step: enabled exactly when a command is pending (R18, R92). It decodes the pending word (R93) and
runs the command, or completes it as ILLEGAL_CMD (R204). With nothing pending, nothing happens. -/
def engineStep (s : State) : Host.Outcome State Fault Refusal :=
  match s.core.pending with
  | none => .next s
  | some p =>
    match decodeWord p.word with
    | .command i => exec i s
    | .illegal _ => completeIllegal s

/-- One step. The next listed turn is taken; where none is listed, the engine goes first while BUSY = 1, so that a
pending command always completes (R19), and the host otherwise. While `rst` is asserted, what the engine or the host
does leaves the CORE in its reset state (R235). -/
def step (s : State) : Host.Outcome State Fault Refusal :=
  match s.turns with
  | [] => heldOutcome (if s.core.busy then engineStep s else hostStep s)
  | .engine :: _ => heldOutcome (engineStep s.dropTurn)
  | .host :: _ => heldOutcome (hostStep s.dropTurn)
  | .rst level :: _ => .next (s.dropTurn.driveRst level)

/-- The machine with the command word `w` (its `nbits` low bits, the rest zero) where the engine takes its next
command: pending, with a snapshot of the operands as they stand (R46). Where turns are listed, the engine's is put
first, and `rst` is released, so that the very next step runs the command. -/
def State.withFetchWord (s : State) (nbits w : Nat) : State :=
  { s with
    core := { s.core with
      pending := some { word := BitVec.ofNat 32 (w % 2 ^ nbits), snapshot := s.core.data } }
    rst := false
    turns := match s.turns with
      | [] => []
      | t :: ts => .engine :: t :: ts }

end Sys2Proof.Machine
end

