-- ==== Sys2Proof/Safety.lean ====
section
/-! DEFINITION. The terms the claims are stated in: what a completion leaves (spec/30_encoding.md R92,
spec/60_exceptions.md R212), the invariant of the machine, what the host can observe (spec/00_scope.md R19), the
causes of the error codes (spec/60_exceptions.md R210) and running one command (spec/30_encoding.md R103). -/

namespace Sys2Proof.Machine

/-! ## What a completion leaves -/

/-- The machine after the CORE completes a command with ERR = 0 and the operands `d` (R92). -/
def State.completedWith (s : State) (d : Operands) : State :=
  { s with core := { s.core with data := d, pending := none, done := true, err := .ok } }

/-- The machine after the CORE completes a command with the error `e`: only STATUS differs (R212). -/
def State.failedWith (s : State) (e : ErrCode) : State :=
  { s with core := { s.core with pending := none, done := true, err := e } }

/-- The machine right after the CORE accepts the word `w` (R91). -/
def State.accepted (s : State) (w : Word) : State := { s with core := s.core.accept w }

/-- `RUN MNEMONIC` with nothing between the accept and the completion (R103): the command is accepted, then the engine
takes its step. -/
def State.runCommand (i : Instr) (s : State) : Host.Outcome State Fault Refusal :=
  engineStep (s.accepted (encode i))

/-- A list of commands run one after another, each completing with ERR = 0; none where one does not. -/
def State.runAll : List Instr → State → Option State
  | [], s => some s
  | i :: is, s =>
    match s.runCommand i with
    | .next t => if t.core.err = .ok then State.runAll is t else none
    | .fault _ => none
    | .refused _ => none

/-! ## The invariant -/

/-- Every reachable CORE satisfies this: BUF is in canonical form and inside its size (R40); a pending command's
snapshot is the data as it stands (R13, R241), with DONE and ERR clear (R91); a cursor that is not valid holds
zeros (R44, R202). -/
structure CoreState.Inv (cfg : Params) (c : CoreState) : Prop where
  bufCanonical : c.data.buf.wf = true
  bufInside : c.data.buf.within cfg.bufBytes = true
  snapshotCurrent : ∀ p, c.pending = some p → p.snapshot = c.data
  busyNotDone : c.busy = true → c.done = false ∧ c.err = .ok
  noCursorIsZero : c.data.cursor.cur = false → c.data.cursor = Cursor.reset

/-- The CORE is in its reset state (R50, R235): every register, the cursor and STATUS as right after the first reset,
nothing pending, and nothing written to BUF since the draw it holds. -/
def CoreState.isReset (c : CoreState) : Prop :=
  c = { State.reset.core with data := { State.reset.core.data with buf := Memory.reset c.data.buf.draw } }

/-- Every reachable machine satisfies this: its CORE does, `rst` holds the CORE in its reset state while it is asserted
(R235), and the host's names are listed in rising order. -/
structure State.Inv (s : State) : Prop where
  core : s.core.Inv s.cfg
  held : s.rst = true → s.core.isReset
  names : assocRising s.host.names = true

/-! ## What the host observes -/

/-- The word a legal read of the word offset `a` returns (R19, R60). -/
def CoreState.view (c : CoreState) (cfg : Params) (a : Nat) : Word := c.readPort cfg (portAt a)

/-- Two COREs that differ at most in what the host cannot read: SK (R34), KS_KEY and KS_NONCE (R44), and the pending
word and snapshot (R46). -/
def CoreState.sameButSecrets (c c' : CoreState) : Prop :=
  { c with
    data := { c.data with
      sk := zeroBytes 32, cursor := { c.data.cursor with key := zeroBytes 32, nonce := zeroBytes 8 } }
    pending := none } =
  { c' with
    data := { c'.data with
      sk := zeroBytes 32, cursor := { c'.data.cursor with key := zeroBytes 32, nonce := zeroBytes 8 } }
    pending := none } ∧
  c.busy = c'.busy

/-- The word `w` shows the flags as STATUS does (R26): BUSY, DONE, WERR and CUR in bits 0 to 3, the code of R210 in bits
7:4, and zeros above. -/
structure CoreState.statusShows (c : CoreState) (w : Word) : Prop where
  busy : w.getLsbD 0 = c.busy
  done : w.getLsbD 1 = c.done
  werr : w.getLsbD 2 = c.werr
  cur : w.getLsbD 3 = c.data.cursor.cur
  ok : c.err = .ok → w.extractLsb' 4 4 = 0
  invalidLength : c.err = .invalidLength → w.extractLsb' 4 4 = 1
  lowOrder : c.err = .lowOrder → w.extractLsb' 4 4 = 2
  authFailed : c.err = .authFailed → w.extractLsb' 4 4 = 3
  illegalCmd : c.err = .illegalCmd → w.extractLsb' 4 4 = 4
  noCursor : c.err = .noCursor → w.extractLsb' 4 4 = 5
  ksExhausted : c.err = .ksExhausted → w.extractLsb' 4 4 = 6
  reserved : w.extractLsb' 8 24 = 0

/-- The word `w` shows CTRL's three fields in bits 0 to 2 and zeros above (R25). -/
structure Ctrl.shows (c : Ctrl) (w : Word) : Prop where
  ie : w.getLsbD 0 = c.ie
  lochk : w.getLsbD 1 = c.lochk
  nacl : w.getLsbD 2 = c.nacl
  reserved : w.extractLsb' 3 29 = 0

/-- The word `w` shows the four bytes of `b` from index `o` on, the lowest in bits 7:0 (R41, R61). -/
def wordShows {n : Nat} (w : Word) (b : Bytes n) (o : Nat) : Prop :=
  ∀ k < 4, some (w.extractLsb' (8 * k) 8) = b[o + k]?

/-- The byte string `b'` is `b` with its four bytes from index `o` on replaced by the word `v`, the lowest from bits 7:0,
and every other byte as it was (R41, R61). -/
def wordStored {n : Nat} (b b' : Bytes n) (o : Nat) (v : Word) : Prop :=
  wordShows v b' o ∧ ∀ i, i < o ∨ o + 4 ≤ i → b'[i]? = b[i]?

/-- A CORE that differs from `c` in its operands only. -/
def CoreState.withData (c : CoreState) (d : Operands) : CoreState := { c with data := d }

/-! ## The shared secret and the error causes -/

/-- The X25519 result of a command's SK and PK (R113). -/
def Operands.sharedSecret (d : Operands) : Bytes 32 := x25519 d.sk d.pk

/-- LOW_ORDER's cause: CTRL.LOCHK = 1 and an all-zero X25519 result (R210). -/
def Operands.lowOrder (d : Operands) : Prop := d.ctrl.lochk = true ∧ d.sharedSecret = zeroBytes 32

/-- INVALID_LENGTH's cause: LEN > BUF_BYTES - 16 (R210). -/
def Operands.overLong (d : Operands) (cfg : Params) : Prop := cfg.bufBytes - 16 < d.len.toNat

/-- KS_EXHAUSTED's cause for `n` bytes: KS_OFF + n ≥ 2^64 (R210). -/
def Operands.runsOut (d : Operands) (n : Nat) : Prop := 2 ^ 64 ≤ d.cursor.off.toNat + n

/-- The keystream of SEAL and OPEN, with BoxKey spelled out (R182, R184 steps 2 and 3). -/
def Operands.boxStream (d : Operands) : List Byte :=
  keystream
    (hsalsa20 (if d.ctrl.nacl then hsalsa20 d.sharedSecret (zeroBytes 16) else d.sharedSecret) d.noncePrefix)
    d.nonceSuffix 0 (32 + d.len.toNat)

/-- The tag OPEN recomputes over the received ciphertext (R188). -/
def Operands.recomputedTag (d : Operands) : Bytes 16 :=
  poly1305 (bytesOfList 32 (d.boxStream.take 32)) (d.buf.slice 16 d.len.toNat)

/-- AUTH_FAILED's cause: the recomputed tag differs from BUF[0:16] (R210). -/
def Operands.tagDiffers (d : Operands) : Prop := d.recomputedTag.toList ≠ d.buf.slice 0 16

/-- Whether a command's error condition holds over the operands it reads (R210, its column "raised by"). -/
def errorHolds (cfg : Params) (i : Instr) (d : Operands) : ErrCode → Prop
  | .ok => False
  | .illegalCmd => False
  | .invalidLength => (i = .ksXor ∨ i = .poly ∨ i = .sealBox ∨ i = .openBox) ∧ d.overLong cfg
  | .noCursor => (i = .ksOtk ∨ i = .ksXor) ∧ d.cursor.cur = false
  | .ksExhausted => (i = .ksOtk ∧ d.runsOut 32) ∨ (i = .ksXor ∧ d.runsOut d.len.toNat)
  | .lowOrder => (i = .agree ∨ i = .sealBox ∨ i = .openBox) ∧ d.lowOrder
  | .authFailed => i = .openBox ∧ d.tagDiffers

/-- The order in which error conditions are reported (R214). -/
def errorPriority : List ErrCode :=
  [.illegalCmd, .invalidLength, .noCursor, .ksExhausted, .lowOrder, .authFailed]

end Sys2Proof.Machine
end

