-- ==== Sys2Proof/Certificates/Slice0/Obligations.lean ====
section
/-! DEFINITION. The statements for the provers. Each docstring names the rule of spec/ that the statement formalises.
In every statement about `exec i s` the operands read are `s.core.snapshot`, the pending command's snapshot (R13), and
what a command leaves unchanged is `s.core.data`: in a reachable state the two are equal (log entry 7). -/

open Sys2Proof Sys2Proof.Machine

/-! ## Decoding and the engine's step -/

/-- R93, R88 on four words of the opcode map and two illegal ones. -/
def Obligations.SampleWordsDecode : Prop :=
  decodeTableWord 32 0x00000000 = some .nop ∧
  decodeTableWord 32 0x00000001 = some .agree ∧
  decodeTableWord 32 0x00000008 = some .sealBox ∧
  decodeTableWord 32 0x0000000F = some .clear ∧
  decodeTableWord 32 0x0000000A = none ∧
  decodeTableWord 32 0x00000108 = none

/-- R93: a 32-bit word decodes to a command exactly where it is that command's word, so that every other word is
ILLEGAL; distinct commands have distinct words. -/
def Obligations.DecodeAndEncodeAgree : Prop :=
  (∀ i : Instr, i.wf = true → decodeWord (encode i) = .command i) ∧
  (∀ (w : Word) (i : Instr), decodeWord w = .command i → w = encode i) ∧
  (∀ w : Word, (∃ i, decodeWord w = .command i) ↔
    w.toNat / 2 ^ 8 = 0 ∧ (w.toNat % 2 ^ 8 ≤ 0x09 ∨ w.toNat % 2 ^ 8 = 0x0F))

/-- R92, R93: where the pending word decodes to a command and `rst` is released, the engine's turn runs that command and nothing else. That the
turns are listed in the state, and that the engine goes first where none is, is the model's choice (log entry 4). -/
def Obligations.StepRunsThePendingCommand : Prop :=
  ∀ (s : State) (p : Pending) (i : Instr), s.core.pending = some p → decodeWord p.word = .command i →
    s.rst = false →
    (s.turns = [] → step s = exec i s) ∧
    (∀ ts, s.turns = .engine :: ts → step s = exec i { s with turns := ts })

/-- R89, R90, R204: a word with MBZ not zero, or with a reserved OP, is accepted and completes with ILLEGAL_CMD,
changing nothing but STATUS. -/
def Obligations.IllegalWordsCompleteAsIllegalCmd : Prop :=
  ∀ (s : State) (w : Word),
    (w.toNat / 2 ^ 8 ≠ 0 ∨ (0x0A ≤ w.toNat % 2 ^ 8 ∧ w.toNat % 2 ^ 8 ≤ 0x0E) ∨ 0x10 ≤ w.toNat % 2 ^ 8) →
    engineStep (s.accepted w) = .next (s.failedWith .illegalCmd)

/-- R205: whatever word is pending, the engine either runs the command it decodes to or completes it as ILLEGAL_CMD,
and in both cases the machine goes on with BUSY = 0 and DONE = 1. -/
def Obligations.EveryPendingWordCompletes : Prop :=
  ∀ (s : State) (p : Pending), s.core.pending = some p →
    ((∃ i, decodeWord p.word = .command i ∧ engineStep s = exec i s) ∨
      ((∃ r, decodeWord p.word = .illegal r) ∧ engineStep s = .next (s.failedWith .illegalCmd))) ∧
    ∃ t, engineStep s = .next t ∧ t.core.busy = false ∧ t.core.done = true

/-! ## What each command does -/

/-- R201: NOP completes and leaves every register other than STATUS, and BUF, unchanged. -/
def Obligations.NopChangesOnlyStatus : Prop :=
  ∀ s : State, exec .nop s = .next (s.completedWith s.core.data)

/-- R119: AGREE stores the X25519 result of SK and PK in SS unless the low-order check rejects it. -/
def Obligations.AgreeStoresTheSharedSecret : Prop :=
  ∀ s : State, ¬ s.core.snapshot.lowOrder →
    exec .agree s =
      .next (s.completedWith { s.core.data with ss := x25519 s.core.snapshot.sk s.core.snapshot.pk })

/-- R139: HSALSA stores HSalsa20(SS, NONCE[0:16]) in SUBKEY. -/
def Obligations.HsalsaStoresTheSubkey : Prop :=
  ∀ s : State, exec .hsalsa s =
    .next (s.completedWith
      { s.core.data with subkey := hsalsa20 s.core.snapshot.ss s.core.snapshot.noncePrefix })

/-- R140: HKEY replaces SS by HSalsa20(SS, 0^16), computed from the snapshot. -/
def Obligations.HkeyReplacesTheSharedSecret : Prop :=
  ∀ s : State, exec .hkey s =
    .next (s.completedWith { s.core.data with ss := hsalsa20 s.core.snapshot.ss (zeroBytes 16) })

/-- R155: KS_INIT starts a cursor at offset 0 with copies of SUBKEY and NONCE[16:24]. -/
def Obligations.KsInitStartsACursor : Prop :=
  ∀ s : State, exec .ksInit s =
    .next (s.completedWith { s.core.data with
      cursor := { cur := true, key := s.core.snapshot.subkey, nonce := s.core.snapshot.nonceSuffix, off := 0 } })

/-- R156: with a valid cursor that does not run out, KS_OTK puts the next 32 keystream bytes into OTK and advances
KS_OFF by 32. -/
def Obligations.KsOtkTakesTheNextBytes : Prop :=
  ∀ s : State, s.core.snapshot.cursor.cur = true → ¬ s.core.snapshot.runsOut 32 →
    ∃ otk : Bytes 32,
      (∀ (j : Nat) (hj : j < 32),
        otk[j] =
          (salsaBlock s.core.snapshot.cursor.key s.core.snapshot.cursor.nonce
            ((s.core.snapshot.cursor.off.toNat + j) / 64))[(s.core.snapshot.cursor.off.toNat + j) % 64]'(by omega)) ∧
      exec .ksOtk s = .next (s.completedWith { s.core.data with
        otk := otk
        cursor := { s.core.data.cursor with
          off := BitVec.ofNat 64 (s.core.snapshot.cursor.off.toNat + 32) } })

/-- R157: with LEN ≤ MAX_LEN and a valid cursor that does not run out, KS_XOR combines the LEN bytes at BUF[16] with
the keystream at KS_OFF on, advances KS_OFF by LEN, and changes no other byte of BUF and nothing else. -/
def Obligations.KsXorCombinesTheMessage : Prop :=
  ∀ s : State, ¬ s.core.snapshot.overLong s.cfg → s.core.snapshot.cursor.cur = true →
    ¬ s.core.snapshot.runsOut s.core.snapshot.len.toNat →
    ∃ t, exec .ksXor s = .next t ∧
      t = s.completedWith { s.core.data with
        buf := t.core.data.buf
        cursor := { s.core.data.cursor with
          off := BitVec.ofNat 64 (s.core.snapshot.cursor.off.toNat + s.core.snapshot.len.toNat) } } ∧
      (∀ j < s.core.snapshot.len.toNat,
        t.core.data.buf.read (16 + j) = s.core.snapshot.buf.read (16 + j) ^^^
          (salsaBlock s.core.snapshot.cursor.key s.core.snapshot.cursor.nonce
            ((s.core.snapshot.cursor.off.toNat + j) / 64))[(s.core.snapshot.cursor.off.toNat + j) % 64]'(by omega)) ∧
      (∀ a, a < 16 ∨ 16 + s.core.snapshot.len.toNat ≤ a →
        t.core.data.buf.read a = s.core.data.buf.read a)

/-- R172: with LEN ≤ MAX_LEN, POLY writes the tag of the LEN bytes at BUF[16] under OTK into BUF[0:16], and changes no
other byte of BUF and nothing else. -/
def Obligations.PolyWritesTheTag : Prop :=
  ∀ s : State, ¬ s.core.snapshot.overLong s.cfg →
    ∃ t, exec .poly s = .next t ∧
      t = s.completedWith { s.core.data with buf := t.core.data.buf } ∧
      (∀ (j : Nat) (hj : j < 16), t.core.data.buf.read j =
        (poly1305 s.core.snapshot.otk (s.core.snapshot.buf.slice 16 s.core.snapshot.len.toNat))[j]) ∧
      (∀ a, 16 ≤ a → t.core.data.buf.read a = s.core.data.buf.read a)

/-- R184: with LEN ≤ MAX_LEN and no low-order rejection, SEAL writes to BUF[16:16+LEN] the message combined with the
private keystream from offset 32 on, and to BUF[0:16] the tag of that ciphertext under the keystream's first 32
bytes; no other byte of BUF and nothing else changes. -/
def Obligations.SealWritesTheBox : Prop :=
  ∀ s : State, ¬ s.core.snapshot.overLong s.cfg → ¬ s.core.snapshot.lowOrder →
    ∃ (t : State) (ct : List Byte), exec .sealBox s = .next t ∧
      t = s.completedWith { s.core.data with buf := t.core.data.buf } ∧
      ct.length = s.core.snapshot.len.toNat ∧
      (∀ (j : Nat) (hj : j < ct.length), ct[j] =
        s.core.snapshot.buf.read (16 + j) ^^^ s.core.snapshot.boxStream.getD (32 + j) 0) ∧
      (∀ (j : Nat) (hj : j < 16), t.core.data.buf.read j =
        (poly1305 (bytesOfList 32 (s.core.snapshot.boxStream.take 32)) ct)[j]) ∧
      (∀ (j : Nat) (hj : j < ct.length), t.core.data.buf.read (16 + j) = ct[j]) ∧
      (∀ a, 16 + s.core.snapshot.len.toNat ≤ a → t.core.data.buf.read a = s.core.data.buf.read a)

/-- R188: with LEN ≤ MAX_LEN, no low-order rejection and a recomputed tag equal to BUF[0:16], OPEN decrypts
BUF[16:16+LEN] in place; no other byte of BUF, the tag among them, and nothing else changes. -/
def Obligations.OpenDecryptsAVerifiedBox : Prop :=
  ∀ s : State, ¬ s.core.snapshot.overLong s.cfg → ¬ s.core.snapshot.lowOrder → ¬ s.core.snapshot.tagDiffers →
    ∃ t, exec .openBox s = .next t ∧
      t = s.completedWith { s.core.data with buf := t.core.data.buf } ∧
      (∀ j < s.core.snapshot.len.toNat, t.core.data.buf.read (16 + j) =
        s.core.snapshot.buf.read (16 + j) ^^^ s.core.snapshot.boxStream.getD (32 + j) 0) ∧
      (∀ a, a < 16 ∨ 16 + s.core.snapshot.len.toNat ≤ a →
        t.core.data.buf.read a = s.core.data.buf.read a)

/-- R203: CLEAR puts SK, PK, NONCE, SS, SUBKEY, OTK and the cursor to their reset state and keeps CTRL, LEN,
STATUS.WERR and BUF. -/
def Obligations.ClearRestoresTheResetKeyState : Prop :=
  ∀ (s : State) (n : Nat),
    exec .clear s = .next (s.completedWith { Operands.reset n with
      ctrl := s.core.data.ctrl, len := s.core.data.len, buf := s.core.data.buf })

/-! ## Errors -/

/-- R189, R188: OPEN with a wrong tag, LEN in range and no low-order rejection reports AUTH_FAILED and changes nothing
but STATUS: BUF keeps every byte. -/
def Obligations.OpenReleasesNothingOnAWrongTag : Prop :=
  ∀ s : State, ¬ s.core.snapshot.overLong s.cfg → ¬ s.core.snapshot.lowOrder → s.core.snapshot.tagDiffers →
    exec .openBox s = .next (s.failedWith .authFailed)

/-- R214: an illegal word reports ILLEGAL_CMD; a command reports OK where none of its error conditions holds, and
otherwise the first that holds in the order of R214. -/
def Obligations.FirstErrorInPriorityIsReported : Prop :=
  (∀ (s : State) (w : Word) (r : DecodeReject), decodeWord w = .illegal r →
    ∃ t, engineStep (s.accepted w) = .next t ∧ t.core.err = .illegalCmd) ∧
  (∀ (i : Instr) (s : State), ∃ t, exec i s = .next t ∧
    ((t.core.err = .ok ∧ ∀ e, ¬ errorHolds s.cfg i s.core.snapshot e) ∨
      (errorHolds s.cfg i s.core.snapshot t.core.err ∧
        ∀ e ∈ errorPriority.takeWhile (· ≠ t.core.err), ¬ errorHolds s.cfg i s.core.snapshot e)))

/-- R212, R13: a command that completes with an error changes nothing but STATUS. -/
def Obligations.FailedCommandsWriteOnlyStatus : Prop :=
  ∀ (i : Instr) (s t : State), exec i s = .next t → t.core.err ≠ .ok → t = s.failedWith t.core.err

/-- R86, column "writes on success", and R62: what each command leaves unchanged, every byte of BUF included. -/
def Obligations.CommandsWriteOnlyTheirOperands : Prop :=
  ∀ (i : Instr) (s t : State), exec i s = .next t →
    t.cfg = s.cfg ∧ t.rst = s.rst ∧ t.host = s.host ∧ t.turns = s.turns ∧ t.core.werr = s.core.werr ∧
    t.core.data.ctrl = s.core.data.ctrl ∧ t.core.data.len = s.core.data.len ∧
    (i ≠ .clear →
      t.core.data.sk = s.core.data.sk ∧ t.core.data.pk = s.core.data.pk ∧ t.core.data.nonce = s.core.data.nonce) ∧
    (i ∉ [.agree, .hkey, .clear] → t.core.data.ss = s.core.data.ss) ∧
    (i ∉ [.hsalsa, .clear] → t.core.data.subkey = s.core.data.subkey) ∧
    (i ∉ [.ksOtk, .clear] → t.core.data.otk = s.core.data.otk) ∧
    (i ∉ [.ksInit, .ksOtk, .ksXor, .clear] → t.core.data.cursor = s.core.data.cursor) ∧
    (i ∈ [.ksOtk, .ksXor] → t.core.data.cursor.cur = s.core.data.cursor.cur ∧
      t.core.data.cursor.key = s.core.data.cursor.key ∧ t.core.data.cursor.nonce = s.core.data.cursor.nonce) ∧
    (i ∉ [.ksXor, .poly, .sealBox, .openBox] → t.core.data.buf = s.core.data.buf) ∧
    (i ∉ [.poly, .sealBox] → ∀ a < 16, t.core.data.buf.read a = s.core.data.buf.read a) ∧
    (i = .poly → ∀ a, 16 ≤ a → t.core.data.buf.read a = s.core.data.buf.read a) ∧
    (∀ a, 16 + s.core.snapshot.len.toNat ≤ a → t.core.data.buf.read a = s.core.data.buf.read a)

/-! ## Key agreement -/

/-- R118: bits 0, 1, 2, 254 and 255 of the scalar do not affect the X25519 result. -/
def Obligations.IgnoredScalarBits : Prop :=
  ∀ K K' U : Bytes 32,
    (∀ (b : Nat) (hb : b < 256), b ≠ 0 → b ≠ 1 → b ≠ 2 → b ≠ 254 → b ≠ 255 →
      (K[b / 8]'(by omega)).getLsbD (b % 8) = (K'[b / 8]'(by omega)).getLsbD (b % 8)) →
    x25519 K U = x25519 K' U

/-- R106: the clamped scalar has bits 0, 1, 2 and 255 clear, bit 254 set, and every other bit as the scalar has it. -/
def Obligations.ClampingFixesFiveBits : Prop :=
  ∀ (K : Bytes 32) (b : Nat), b < 256 →
    (le (clamp25519 K).toList).testBit b =
      (if b = 254 then true
       else if b = 0 ∨ b = 1 ∨ b = 2 ∨ b = 255 then false
       else (le K.toList).testBit b)

/-- R107: the point is the integer without bit 255, reduced; so bit 255 of the string is ignored, and a value in
[p25519, 2^255) acts as that value less p25519. -/
def Obligations.PointDecodingMasksAndReduces : Prop :=
  (∀ U : Bytes 32, decodeU U = le U.toList % 2 ^ 255 % p25519) ∧
  (∀ K U U' : Bytes 32, (∀ (i : Nat) (hi : i < 31), U[i] = U'[i]) →
    U[31] &&& 0x7F = U'[31] &&& 0x7F → x25519 K U = x25519 K U') ∧
  (∀ K U U' : Bytes 32, le U'.toList = le U.toList + p25519 → le U'.toList < 2 ^ 255 → x25519 K U = x25519 K U')

/-- R108: the model's inverse by squaring is the power `a^(p25519 - 2) mod p25519`, and the other field operations give
the least non-negative residues of the exact results. -/
def Obligations.FieldOperationsAreExact : Prop :=
  (∀ a : Nat, finv a = a ^ (p25519 - 2) % p25519) ∧ finv 0 = 0 ∧
  (∀ a b : Nat, a < p25519 → b < p25519 →
    fadd a b = (a + b) % p25519 ∧ fmul a b = a * b % p25519 ∧
    fsub a b < p25519 ∧ (fsub a b + b) % p25519 = a)

/-- R112: the ladder's result is below p25519, the string X25519 returns is that integer, and its bit 255 is 0. -/
def Obligations.SharedSecretIsCanonical : Prop :=
  ∀ K U : Bytes 32,
    ladder (le (clamp25519 K).toList) (decodeU U) < p25519 ∧
    le (x25519 K U).toList = ladder (le (clamp25519 K).toList) (decodeU U) ∧
    (x25519 K U)[31].getLsbD 7 = false

/-- R120(b), R116 for the point of order 2: a public point that decodes to u = 0 gives the all-zero result for every
scalar. -/
def Obligations.ZeroPointGivesZeroForEveryScalar : Prop :=
  ∀ K U : Bytes 32, decodeU U = 0 → x25519 K U = zeroBytes 32

/-- R117, R119, R184, R188: with CTRL.LOCHK = 1, AGREE, and SEAL and OPEN with LEN in range, reject an all-zero shared
secret with LOW_ORDER and change nothing but STATUS. -/
def Obligations.LowOrderCheckRejects : Prop :=
  ∀ s : State, s.core.snapshot.lowOrder →
    exec .agree s = .next (s.failedWith .lowOrder) ∧
    (¬ s.core.snapshot.overLong s.cfg →
      exec .sealBox s = .next (s.failedWith .lowOrder) ∧ exec .openBox s = .next (s.failedWith .lowOrder))

/-! ## The ARX pipeline and the keystream -/

/-- R128: the quarter-round on four distinct positions maps zeros to zeros, leaves the other twelve words, is a
bijection, and agrees with the published example. -/
def Obligations.QuarterRoundIsABijection : Prop :=
  ∀ a b c d : Fin 16, a ≠ b → a ≠ c → a ≠ d → b ≠ c → b ≠ d → c ≠ d →
    (∀ x : Matrix, x[a] = 0 → x[b] = 0 → x[c] = 0 → x[d] = 0 → quarterRound x a b c d = x) ∧
    (∀ (x : Matrix) (i : Fin 16), i ≠ a → i ≠ b → i ≠ c → i ≠ d → (quarterRound x a b c d)[i] = x[i]) ∧
    Function.Bijective (fun x : Matrix => quarterRound x a b c d) ∧
    (∀ x : Matrix, x[a] = 1 → x[b] = 0 → x[c] = 0 → x[d] = 0 →
      (quarterRound x a b c d)[a] = 0x08008145 ∧ (quarterRound x a b c d)[b] = 0x00000080 ∧
      (quarterRound x a b c d)[c] = 0x00010200 ∧ (quarterRound x a b c d)[d] = 0x20500000)

/-- R133: the permutation is ten double rounds in sequence, a bijection, and maps the zero matrix to itself. -/
def Obligations.PermutationIsABijection : Prop :=
  (∀ x : Matrix, perm20 x = doubleRound^[10] x) ∧
  Function.Bijective perm20 ∧
  perm20 (Vector.replicate 16 0) = Vector.replicate 16 0

/-- R136: HSalsa20 gives the permuted words at positions 0, 5, 10, 15, 6, 7, 8, 9, in that order, little-endian, with no
feedforward. -/
def Obligations.SubkeyIsEightPermutedWords : Prop :=
  ∀ (K : Bytes 32) (N : Bytes 16) (j : Fin 8),
    w32 (hsalsa20 K N).toList j.val =
      (perm20 (salsaInit K N))[(#v[0, 5, 10, 15, 6, 7, 8, 9] : Vector (Fin 16) 8)[j]]

/-- R146, R151: the block's input matrix holds the constants and the key as HSalsa20's does, the nonce at 6-7 and the
64-bit counter at 8-9, low word first, so that block 2^32 has 0 and 1 there. -/
def Obligations.BlockInputLayout : Prop :=
  (∀ (K : Bytes 32) (N : Bytes 8) (ctr : Nat), ctr < 2 ^ 64 →
    blockInit K N ctr = #v[
      0x61707865, w32 K.toList 0, w32 K.toList 1, w32 K.toList 2,
      w32 K.toList 3, 0x3320646e, w32 N.toList 0, w32 N.toList 1,
      BitVec.ofNat 32 (ctr % 2 ^ 32), BitVec.ofNat 32 (ctr / 2 ^ 32), 0x79622d32, w32 K.toList 4,
      w32 K.toList 5, w32 K.toList 6, w32 K.toList 7, 0x6b206574]) ∧
  (∀ (K : Bytes 32) (N : Bytes 8), (blockInit K N (2 ^ 32))[8] = 0 ∧ (blockInit K N (2 ^ 32))[9] = 1)

/-- R147: word i of a keystream block is the permuted word plus the input word, mod 2^32. -/
def Obligations.BlockWordsAreFedForward : Prop :=
  ∀ (K : Bytes 32) (N : Bytes 8) (ctr : Nat) (i : Fin 16),
    w32 (salsaBlock K N ctr).toList i.val = (perm20 (blockInit K N ctr))[i] + (blockInit K N ctr)[i]

/-- R149: byte j of Keystream(K, N, off, n) is byte (off + j) mod 64 of block (off + j) div 64, for a range that may
start and end inside a block. -/
def Obligations.KeystreamByteAtItsOffset : Prop :=
  ∀ (K : Bytes 32) (N : Bytes 8) (off n : Nat),
    (keystream K N off n).length = n ∧
    ∀ j < n, (keystream K N off n)[j]? =
      some ((salsaBlock K N ((off + j) / 64))[(off + j) % 64]'(Nat.mod_lt _ (by decide)))

/-- R150: the keystream splits at any point. -/
def Obligations.KeystreamSplitsAnywhere : Prop :=
  ∀ (K : Bytes 32) (N : Bytes 8) (off n₁ n₂ : Nat),
    keystream K N off (n₁ + n₂) = keystream K N off n₁ ++ keystream K N (off + n₁) n₂

/-- R162: for a cursor started by KS_INIT and then advanced by KS_OTK, whatever else happened in between that left the
cursor as it was, the first byte KS_XOR combines into BUF[16] is byte 32 of block 0. -/
def Obligations.FirstDataByteIsKeystreamByte32 : Prop :=
  ∀ s s₁ r₁ s₂ r₂ s₃ : State,
    s.runCommand .ksInit = .next s₁ → r₁.core.data.cursor = s₁.core.data.cursor →
    r₁.runCommand .ksOtk = .next s₂ → r₂.core.data.cursor = s₂.core.data.cursor →
    r₂.runCommand .ksXor = .next s₃ →
    0 < r₂.core.data.len.toNat → ¬ r₂.core.data.overLong r₂.cfg →
    s₃.core.data.buf.read 16 = r₂.core.data.buf.read 16 ^^^
      (salsaBlock s₁.core.data.cursor.key s₁.core.data.cursor.nonce 0)[32]

/-- R45: in a step from a state that meets the invariant, KS_OFF keeps its value, or grows by the 32 bytes KS_OTK or the
LEN bytes KS_XOR emitted, or KS_INIT, CLEAR or reset starts it anew at 0. -/
def Obligations.CursorOffsetOnlyGrows : Prop :=
  ∀ s t : State, s.Inv → step s = .next t →
    t.core.data.cursor.off = s.core.data.cursor.off ∨
    (s.turns.head? = some (.rst true) ∧ t.core.data.cursor.off = 0) ∨
    ∃ p, s.core.pending = some p ∧ t.core.pending = none ∧
      (((decodeWord p.word = .command .ksInit ∨ decodeWord p.word = .command .clear) ∧
          t.core.data.cursor.off = 0) ∨
        (decodeWord p.word = .command .ksOtk ∧
          t.core.data.cursor.off.toNat = s.core.data.cursor.off.toNat + 32) ∨
        (decodeWord p.word = .command .ksXor ∧
          t.core.data.cursor.off.toNat = s.core.data.cursor.off.toNat + s.core.data.len.toNat))

/-! ## The polynomial MAC -/

/-- R167: the blocks join back to the message, there are ceil(L/16) of them, every one but the last has 16 bytes and
the last 1 to 16. -/
def Obligations.MacBlocksPartitionTheMessage : Prop :=
  ∀ m : List Byte,
    (polyBlocks m).flatten = m ∧ (polyBlocks m).length = (m.length + 15) / 16 ∧
    (∀ (i : Nat) (h : i < (polyBlocks m).length),
      (polyBlocks m)[i] = (m.drop (16 * i)).take 16 ∧
      1 ≤ (polyBlocks m)[i].length ∧ (polyBlocks m)[i].length ≤ 16 ∧
      (i + 1 < (polyBlocks m).length → (polyBlocks m)[i].length = 16))

/-- R165, R169, R170: the tag is the low 128 bits of s plus the value at r, mod 2^130 - 5, of the polynomial whose
coefficients are the block integers. -/
def Obligations.TagIsAPolynomialEvaluation : Prop :=
  ∀ (otk : Bytes 32) (m : List Byte),
    le (poly1305 otk m).toList =
      ((∑ i : Fin (polyBlocks m).length,
          polyBlockInt (polyBlocks m)[i] * polyR otk ^ ((polyBlocks m).length - i.val)) % (2 ^ 130 - 5)
        + le (otk.toList.drop 16)) % 2 ^ 128

/-- R173(a), R173(b): an empty message, or a key whose clamped first half is 0, has the tag OTK[16:32]. -/
def Obligations.TagOfNothingIsTheSecondHalf : Prop :=
  ∀ (otk : Bytes 32) (m : List Byte), m = [] ∨ polyR otk = 0 →
    (poly1305 otk m).toList = otk.toList.drop 16

/-! ## The box -/

/-- R181: the constant-time comparison answers whether the two strings are equal. -/
def Obligations.TagComparisonIsEquality : Prop :=
  ∀ a b : Bytes 16, ctEq16 a b = true ↔ a = b

/-- R187: from a state with BUSY = 0, AGREE, HKEY where CTRL.NACL = 1, HSALSA, KS_INIT, KS_OTK, KS_XOR and POLY, each
completing with ERR = 0, leave BUF as SEAL leaves it; they differ from SEAL only in SS, SUBKEY, OTK and the cursor. -/
def Obligations.SealEqualsThePrimitiveCommands : Prop :=
  ∀ s t : State, s.core.busy = false →
    State.runAll (.agree :: (if s.core.data.ctrl.nacl then [.hkey] else []) ++
      [.hsalsa, .ksInit, .ksOtk, .ksXor, .poly]) s = some t →
    ∃ u, s.runCommand .sealBox = .next u ∧ u.core.err = .ok ∧
      (∀ a, t.core.data.buf.read a = u.core.data.buf.read a) ∧
      { t with core := { t.core with data := { t.core.data with
          ss := u.core.data.ss, subkey := u.core.data.subkey, otk := u.core.data.otk,
          cursor := u.core.data.cursor, buf := u.core.data.buf } } } = u

/-- R191 with the symmetry of X25519 (R114) as the premise that both sides have one shared secret: what one side seals,
the other opens, and gets the plaintext back. -/
def Obligations.OpenUndoesSeal : Prop :=
  ∀ s t r : State, s.runCommand .sealBox = .next t → t.core.err = .ok →
    r.cfg = s.cfg → r.core.data.ctrl = s.core.data.ctrl → r.core.data.len = s.core.data.len →
    r.core.data.nonce = s.core.data.nonce → r.core.data.sharedSecret = s.core.data.sharedSecret →
    (∀ a < 16 + s.core.data.len.toNat, r.core.data.buf.read a = t.core.data.buf.read a) →
    ∃ u, r.runCommand .openBox = .next u ∧ u.core.err = .ok ∧
      ∀ j < s.core.data.len.toNat, u.core.data.buf.read (16 + j) = s.core.data.buf.read (16 + j)

/-- R192, the tag's half: a box whose tag differs from the sealed one in any bit is rejected with AUTH_FAILED by the
matching keys, and nothing but STATUS changes. -/
def Obligations.OpenRejectsAFlippedTag : Prop :=
  ∀ s t r : State, s.runCommand .sealBox = .next t → t.core.err = .ok →
    r.cfg = s.cfg → r.core.data.ctrl = s.core.data.ctrl → r.core.data.len = s.core.data.len →
    r.core.data.nonce = s.core.data.nonce → r.core.data.sharedSecret = s.core.data.sharedSecret →
    (∀ j < s.core.data.len.toNat, r.core.data.buf.read (16 + j) = t.core.data.buf.read (16 + j)) →
    (∃ a < 16, r.core.data.buf.read a ≠ t.core.data.buf.read a) →
    r.runCommand .openBox = .next (r.failedWith .authFailed)

/-- R193: on one configuration, SEAL's result code and output are a function of SK, PK, NONCE, LEN, BUF[16:16+LEN],
LOCHK and NACL, and OPEN's of the same with BUF[0:16+LEN]; no other state enters. OPEN leaves the tag slot as it is, so
that BUF[0:16] too is the same after it where the snapshot's BUF is the data's, as in every reachable state. -/
def Obligations.BoxCommandsAreFunctionsOfTheirInputs : Prop :=
  ∀ s s' t t' u u' : State,
    s.cfg = s'.cfg →
    s.core.snapshot.sk = s'.core.snapshot.sk → s.core.snapshot.pk = s'.core.snapshot.pk →
    s.core.snapshot.nonce = s'.core.snapshot.nonce → s.core.snapshot.len = s'.core.snapshot.len →
    s.core.snapshot.ctrl.lochk = s'.core.snapshot.ctrl.lochk →
    s.core.snapshot.ctrl.nacl = s'.core.snapshot.ctrl.nacl →
    (∀ j < s.core.snapshot.len.toNat, s.core.snapshot.buf.read (16 + j) = s'.core.snapshot.buf.read (16 + j)) →
    exec .sealBox s = .next t → exec .sealBox s' = .next t' →
    exec .openBox s = .next u → exec .openBox s' = .next u' →
    (t.core.err = t'.core.err ∧
      (t.core.err = .ok → ∀ a < 16 + s.core.snapshot.len.toNat,
        t.core.data.buf.read a = t'.core.data.buf.read a)) ∧
    ((∀ a < 16, s.core.snapshot.buf.read a = s'.core.snapshot.buf.read a) →
      u.core.err = u'.core.err ∧
      (u.core.err = .ok →
        (∀ j < s.core.snapshot.len.toNat,
          u.core.data.buf.read (16 + j) = u'.core.data.buf.read (16 + j)) ∧
        (s.core.snapshot.buf = s.core.data.buf → s'.core.snapshot.buf = s'.core.data.buf →
          ∀ a < 16, u.core.data.buf.read a = u'.core.data.buf.read a)))

/-! ## The host port -/

/-- R65 with R63 and R64: a transaction inside the window that is misaligned, not 32 bits wide or not on all four lanes
gets BUSERR, returns 0, and changes nothing, irq included. -/
def Obligations.BusErrorsHaveNoEffect : Prop :=
  ∀ (c : CoreState) (cfg : Params) (op : BusOp), cfg.base ≤ op.addr → op.addr - cfg.base < cfg.windowBytes →
    ((op.addr - cfg.base) % 4 ≠ 0 ∨ op.width ≠ .w32 ∨ op.lanes ≠ 0xF) →
    c.transact cfg op = some { core := c, data := 0, resp := .buserr }

/-- R66: a host write at an offset beyond the window stops the model by name: the CORE does not respond. The stop is the
model's choice (log entry 8). -/
def Obligations.AccessOutsideTheWindowStops : Prop :=
  ∀ (s : State) (off : Nat) (v : Word), s.turns = [] → s.core.busy = false →
    s.host.prog[s.host.pc]? = some (.wr off v) → s.cfg.windowBytes ≤ off →
    step s = .fault .outsideWindow

/-- R68: a read changes no state, so that two reads of one offset return the same. -/
def Obligations.ReadsHaveNoSideEffects : Prop :=
  ∀ (c : CoreState) (cfg : Params) (op : BusOp) (r : BusResult), op.access = .read →
    c.transact cfg op = some r → r.core = c ∧ r.core.transact cfg op = some r

/-- R91: a write of any word to CMD while BUSY = 0 accepts it: it is pending with a snapshot of the operands, BUSY
rises, DONE and ERR are cleared, and WERR and CUR are unchanged. -/
def Obligations.CmdWriteAccepts : Prop :=
  ∀ (c : CoreState) (cfg : Params) (w : Word), c.busy = false →
    c.transact cfg (memWrite cfg 0x010 w) = some {
      core := { c with pending := some { word := w, snapshot := c.data }, done := false, err := .ok }
      data := 0, resp := .okay }

/-- R26: a write to STATUS clears DONE where bit 1 of the datum is 1 and WERR where bit 2 is, even while BUSY = 1, and
changes nothing else. -/
def Obligations.StatusWriteClearsNamedBits : Prop :=
  ∀ (c : CoreState) (cfg : Params) (v : Word),
    c.transact cfg (memWrite cfg 0x00C v) = some {
      core := { c with
        done := if v.getLsbD 1 then false else c.done
        werr := if v.getLsbD 2 then false else c.werr }
      data := 0, resp := .okay }

/-- R241: while BUSY = 1, a legal write to any offset other than STATUS has no effect but setting WERR, so that the
pending command's inputs do not change; a write to STATUS takes effect as it does while BUSY = 0. -/
def Obligations.WritesWhileBusyAreDropped : Prop :=
  ∀ (c : CoreState) (cfg : Params) (a : Nat) (v : Word), c.busy = true → a % 4 = 0 → a < cfg.windowBytes →
    (a ≠ 0x00C → c.transact cfg (memWrite cfg a v) =
      some { core := { c with werr := true }, data := 0, resp := .okay }) ∧
    (a = 0x00C → c.transact cfg (memWrite cfg a v) =
      some { core := c.writeStatus v, data := 0, resp := .okay })

/-- R242, R49: while BUSY = 1, legal reads of ID, CTRL, STATUS, LEN and BUFSZ return their values and a legal read of any
other offset returns 0. With R22, R24-R30, R34-R41 and R210: a legal read returns what the register map has at its
offset, STATUS with its flags and its code in their bits, and while BUSY = 0 KSOFF, every byte array and BUF as they
stand, and 0 for CMD, SK and the reserved offsets. -/
def Obligations.ReadsWhileBusyShowOnlyControl : Prop :=
  ∀ (c : CoreState) (cfg : Params) (a : Nat), a % 4 = 0 → a < cfg.windowBytes →
    ∃ w, c.transact cfg (memRead cfg a) = some { core := c, data := w, resp := .okay } ∧
      (a = 0x000 → w = 0x584F4243) ∧
      (a = 0x008 → c.data.ctrl.shows w) ∧
      (a = 0x00C → c.statusShows w) ∧
      (a = 0x014 → w = c.data.len) ∧
      (a = 0x018 → w.toNat = cfg.bufBytes) ∧
      (c.busy = true → a ∉ [0x000, 0x008, 0x00C, 0x014, 0x018] → w = 0) ∧
      (c.busy = false →
        (a = 0x020 → w.toNat = c.data.cursor.off.toNat % 2 ^ 32) ∧
        (a = 0x024 → w.toNat = c.data.cursor.off.toNat / 2 ^ 32) ∧
        (0x060 ≤ a → a < 0x080 → wordShows w c.data.pk (a - 0x060)) ∧
        (0x080 ≤ a → a < 0x098 → wordShows w c.data.nonce (a - 0x080)) ∧
        (0x0A0 ≤ a → a < 0x0C0 → wordShows w c.data.ss (a - 0x0A0)) ∧
        (0x0C0 ≤ a → a < 0x0E0 → wordShows w c.data.subkey (a - 0x0C0)) ∧
        (0x0E0 ≤ a → a < 0x100 → wordShows w c.data.otk (a - 0x0E0)) ∧
        (0x1000 ≤ a → ∀ k < 4, w.extractLsb' (8 * k) 8 = c.data.buf.read (a - 0x1000 + k)) ∧
        (a = 0x010 ∨ (0x040 ≤ a ∧ a < 0x060) ∨ a = 0x004 ∨ a = 0x01C ∨ (0x028 ≤ a ∧ a < 0x040) ∨
          a = 0x098 ∨ a = 0x09C ∨ (0x100 ≤ a ∧ a < 0x1000) → w = 0))

/-- R34, R44, R46: SK, KS_KEY, KS_NONCE and the pending word are not readable: two COREs that differ only in them
return the same word at every offset, and SK's own offsets read 0. -/
def Obligations.SecretsAreNotReadable : Prop :=
  (∀ (c c' : CoreState) (cfg : Params) (a : Nat), c.sameButSecrets c' → c.view cfg a = c'.view cfg a) ∧
  (∀ (c : CoreState) (cfg : Params) (a : Nat), 0x040 ≤ a → a < 0x060 → c.view cfg a = 0)

/-- R33, R34, R61, R69: while BUSY = 0, a word written at a word offset of CTRL, LEN, SK, PK, NONCE, SS, SUBKEY, OTK or
BUF is stored there, a byte array or BUF getting its four bytes and keeping every other, and changes nothing else in the
CORE. In every one but SK, which reads 0 (R34), a read of that offset then returns the word; CTRL keeps the three named
bits and reads the others as 0 (R25). -/
def Obligations.WrittenWordReadsBack : Prop :=
  ∀ (c : CoreState) (cfg : Params) (a : Nat) (v : Word), c.busy = false → a % 4 = 0 → a < cfg.windowBytes →
    ∃ r : BusResult, c.transact cfg (memWrite cfg a v) = some r ∧ r.data = 0 ∧ r.resp = .okay ∧
      (a = 0x008 →
        r.core = c.withData { c.data with
          ctrl := { ie := v.getLsbD 0, lochk := v.getLsbD 1, nacl := v.getLsbD 2 } } ∧
        r.core.view cfg a = v &&& 0x7) ∧
      (a = 0x014 → r.core = c.withData { c.data with len := v } ∧ r.core.view cfg a = v) ∧
      (0x040 ≤ a → a < 0x060 → ∃ b, wordStored c.data.sk b (a - 0x040) v ∧
        r.core = c.withData { c.data with sk := b } ∧ r.core.view cfg a = 0) ∧
      (0x060 ≤ a → a < 0x080 → ∃ b, wordStored c.data.pk b (a - 0x060) v ∧
        r.core = c.withData { c.data with pk := b } ∧ r.core.view cfg a = v) ∧
      (0x080 ≤ a → a < 0x098 → ∃ b, wordStored c.data.nonce b (a - 0x080) v ∧
        r.core = c.withData { c.data with nonce := b } ∧ r.core.view cfg a = v) ∧
      (0x0A0 ≤ a → a < 0x0C0 → ∃ b, wordStored c.data.ss b (a - 0x0A0) v ∧
        r.core = c.withData { c.data with ss := b } ∧ r.core.view cfg a = v) ∧
      (0x0C0 ≤ a → a < 0x0E0 → ∃ b, wordStored c.data.subkey b (a - 0x0C0) v ∧
        r.core = c.withData { c.data with subkey := b } ∧ r.core.view cfg a = v) ∧
      (0x0E0 ≤ a → a < 0x100 → ∃ b, wordStored c.data.otk b (a - 0x0E0) v ∧
        r.core = c.withData { c.data with otk := b } ∧ r.core.view cfg a = v) ∧
      (0x1000 ≤ a → ∃ m : Memory,
        m.draw = c.data.buf.draw ∧
        (∀ k < 4, m.read (a - 0x1000 + k) = v.extractLsb' (8 * k) 8) ∧
        (∀ i, i < a - 0x1000 ∨ a - 0x1000 + 4 ≤ i → m.read i = c.data.buf.read i) ∧
        r.core = c.withData { c.data with buf := m } ∧ r.core.view cfg a = v)

/-- R23, R33: while BUSY = 0, a write to ID, BUFSZ, KSOFF_LO, KSOFF_HI or a reserved offset changes nothing, and a
reserved offset reads 0. -/
def Obligations.ReadOnlyAndReservedOffsetsIgnoreWrites : Prop :=
  ∀ (c : CoreState) (cfg : Params) (a : Nat) (v : Word), c.busy = false → a % 4 = 0 →
    ((a = 0x000 ∨ a = 0x018 ∨ a = 0x020 ∨ a = 0x024) →
      c.transact cfg (memWrite cfg a v) = some { core := c, data := 0, resp := .okay }) ∧
    ((a = 0x004 ∨ a = 0x01C ∨ (0x028 ≤ a ∧ a < 0x040) ∨ a = 0x098 ∨ a = 0x09C ∨ (0x100 ≤ a ∧ a < 0x1000)) →
      c.transact cfg (memWrite cfg a v) = some { core := c, data := 0, resp := .okay } ∧
      c.transact cfg (memRead cfg a) = some { core := c, data := 0, resp := .okay })

/-- R101, R19: a WAIT that stands at the host's program counter ends: with no other turn listed and `rst` released, a busy CORE completes
and the host leaves the loop within three steps, its name holding a STATUS word with BUSY = 0. That the engine goes
first where no turn is listed is the model's choice (log entry 4). -/
def Obligations.WaitEnds : Prop :=
  ∀ (s : State) (name : Nat), s.turns = [] → s.rst = false → s.core.busy = true →
    s.host.prog[s.host.pc]? = some (.rd 0x00C name) →
    s.host.prog[s.host.pc + 1]? = some (.bnz name 0x1 s.host.pc) →
    ∃ t, Host.Core.run Sys2Proof.core 3 s = .next t ∧ t.core.busy = false ∧ t.host.pc = s.host.pc + 2 ∧
      t.host.word name = t.core.statusWord ∧ t.core.statusWord &&& 0x1 = 0

/-! ## Interrupt, reset and the invariant -/

/-- R216: irq is IE and DONE; a completion asserts it where IE = 1, whatever the code; it is deasserted by writing 1 to
STATUS bit 1, by accepting a command, by writing CTRL with IE = 0, and by reset. -/
def Obligations.InterruptFollowsCompletion : Prop :=
  (∀ c : CoreState, c.irq = (c.data.ctrl.ie && c.done)) ∧
  (∀ (s : State) (p : Pending), s.core.pending = some p →
    ∃ t, engineStep s = .next t ∧ t.core.irq = s.core.data.ctrl.ie) ∧
  (∀ (c : CoreState) (v : Word), v.getLsbD 1 = true → (c.writePort v .status).irq = false) ∧
  (∀ (c : CoreState) (v : Word), c.busy = false → (c.writePort v .cmd).irq = false) ∧
  (∀ (c : CoreState) (v : Word), c.busy = false → v.getLsbD 0 = false → (c.writePort v .ctrl).irq = false) ∧
  (∀ c : CoreState, c.rst.irq = false)

/-- R50, R235: right after reset, in every configuration, ID, CTRL, STATUS, LEN, BUFSZ and KSOFF read as R50 states,
every operand register and the cursor are zero, no command is pending, and irq is 0. -/
def Obligations.ResetLeavesTheStatedValues : Prop :=
  ∀ p : Params,
    (State.resetWith p).core.view p 0x000 = 0x584F4243 ∧ (State.resetWith p).core.view p 0x008 = 0x00000004 ∧
    (State.resetWith p).core.view p 0x00C = 0 ∧ (State.resetWith p).core.view p 0x014 = 0 ∧
    (State.resetWith p).core.view p 0x018 = BitVec.ofNat 32 p.bufBytes ∧
    (State.resetWith p).core.view p 0x020 = 0 ∧ (State.resetWith p).core.view p 0x024 = 0 ∧
    (State.resetWith p).core.data.sk = zeroBytes 32 ∧ (State.resetWith p).core.data.pk = zeroBytes 32 ∧
    (State.resetWith p).core.data.nonce = zeroBytes 24 ∧ (State.resetWith p).core.data.ss = zeroBytes 32 ∧
    (State.resetWith p).core.data.subkey = zeroBytes 32 ∧ (State.resetWith p).core.data.otk = zeroBytes 32 ∧
    (State.resetWith p).core.data.cursor =
      { cur := false, key := zeroBytes 32, nonce := zeroBytes 8, off := 0 } ∧
    (State.resetWith p).core.pending = none ∧ (State.resetWith p).core.irq = false

/-- R235, R236: asserting rst, and releasing it, discards a pending command without effect and puts the CORE into its
reset state, irq = 0 among it; and while rst stays asserted, every step, whatever the host or the engine does in it,
leaves the CORE there. Each time every byte of BUF is a fresh draw; the configuration and the host are not part of the
CORE. That a draw is numbered by the resets before it is the model's choice (log entry 2), and that a step under rst
draws afresh is too (log entry 13). -/
def Obligations.ResetDiscardsThePendingCommand : Prop :=
  ∀ s : State,
    (∀ (level : Bool) (ts : List Turn), s.turns = .rst level :: ts → (level = true ∨ s.rst = true) →
      ∃ t, step s = .next t ∧ t.cfg = s.cfg ∧ t.rst = level ∧ t.host = s.host ∧ t.turns = ts ∧
        t.core.isReset ∧ t.core.irq = false ∧
        ∀ i, t.core.data.buf.read i = Config.bufDraw (s.core.data.buf.draw + 1) i) ∧
    (s.rst = true → ∀ t, step s = .next t →
      t.core.isReset ∧ t.core.irq = false ∧ s.core.data.buf.draw < t.core.data.buf.draw ∧
      ∀ i, t.core.data.buf.read i = Config.bufDraw t.core.data.buf.draw i)

/-- The invariant holds right after reset, in every configuration (R50). -/
def Obligations.ResetMeetsTheInvariant : Prop :=
  ∀ p : Params, (State.resetWith p).Inv

/-- Every step from a state that meets the invariant leads to one that does: BUF stays canonical and inside its size
(R40), a pending command's snapshot stays equal to the data (R13, R241), DONE and ERR stay clear while BUSY = 1 (R91), a
cursor that is not valid stays zero (R44, R202), and the CORE is in its reset state while rst is asserted (R235). -/
def Obligations.EveryStepKeepsTheInvariant : Prop :=
  ∀ s t : State, s.Inv → step s = .next t → t.Inv
end

