-- ==== Sys2Proof/Laws/Bytes.lean ====
section
/-! SUPPORT. Little-endian conversion (R9): its range, its round trips, and the bytes of a word. -/

namespace Sys2Proof.Machine

@[simp] theorem le_nil : le [] = 0 := rfl
@[simp] theorem le_cons (b : Byte) (t : List Byte) : le (b :: t) = b.toNat + 256 * le t := rfl

/-- `le(B) < 2^(8·len(B))`. -/
theorem le_lt (l : List Byte) : le l < 2 ^ (8 * l.length) := by
  induction l with
  | nil => simp
  | cons b t ih =>
    have hb := b.isLt
    have h2 : 2 ^ (8 * (b :: t).length) = 256 * 2 ^ (8 * t.length) := by
      rw [List.length_cons, Nat.mul_add, Nat.pow_add, Nat.mul_comm]
    rw [le_cons, h2]; omega

/-- The integer of a concatenation. -/
theorem le_append (a b : List Byte) : le (a ++ b) = le a + 2 ^ (8 * a.length) * le b := by
  induction a with
  | nil => simp
  | cons x t ih =>
    have h2 : 2 ^ (8 * (x :: t).length) = 256 * 2 ^ (8 * t.length) := by
      rw [List.length_cons, Nat.mul_add, Nat.pow_add, Nat.mul_comm]
    rw [List.cons_append, le_cons, le_cons, ih, h2]; ring

/-- Byte i of a string is what its integer holds at bits 8i+7:8i. -/
theorem le_byte (l : List Byte) (i : Nat) (h : i < l.length) : le l / 2 ^ (8 * i) % 256 = l[i].toNat := by
  induction l generalizing i with
  | nil => simp at h
  | cons b t ih =>
    have hb := b.isLt
    cases i with
    | zero => simp; omega
    | succ i =>
      have h2 : 2 ^ (8 * (i + 1)) = 256 * 2 ^ (8 * i) := by
        rw [Nat.mul_add, Nat.pow_add, Nat.mul_comm]
      rw [le_cons, h2, ← Nat.div_div_eq_div_mul, show (b.toNat + 256 * le t) / 256 = le t by omega]
      simpa using ih i (by simpa using h)

/-- `le_bytes_n(le(B)) = B` for a string of n bytes. -/
theorem leBytes_le {n : Nat} (b : Bytes n) : leBytes n (le b.toList) = b := by
  apply Vector.ext
  intro i hi
  have h := le_byte b.toList i (by simpa using hi)
  apply BitVec.eq_of_toNat_eq
  simpa [leBytes] using h

/-- The byte at position i of `le_bytes_n(v)`. -/
@[simp] theorem leBytes_getElem (n v i : Nat) (h : i < n) :
    (leBytes n v)[i] = BitVec.ofNat 8 (v / 2 ^ (8 * i)) := by
  simp [leBytes]

/-- Prepending the low byte: `le_bytes_{n+1}(v)` is `v mod 256` and then `le_bytes_n(v div 256)`. -/
theorem leBytes_succ_toList (n v : Nat) :
    (leBytes (n + 1) v).toList = BitVec.ofNat 8 v :: (leBytes n (v / 256)).toList := by
  apply List.ext_getElem
  · simp
  · intro i h1 h2
    cases i with
    | zero => simp
    | succ i =>
      have h3 : 2 ^ (8 * (i + 1)) = 256 * 2 ^ (8 * i) := by
        rw [Nat.mul_add, Nat.pow_add, Nat.mul_comm]
      simp [h3, Nat.div_div_eq_div_mul]

/-- `le(le_bytes_n(v)) = v mod 2^(8n)`. -/
theorem le_leBytes (n v : Nat) : le (leBytes n v).toList = v % 2 ^ (8 * n) := by
  induction n generalizing v with
  | zero => simp [List.eq_nil_of_length_eq_zero (show (leBytes 0 v).toList.length = 0 by simp), Nat.mod_one]
  | succ n ih =>
    have h2 : 2 ^ (8 * (n + 1)) = 256 * 2 ^ (8 * n) := by
      rw [Nat.mul_add, Nat.pow_add, Nat.mul_comm]
    rw [leBytes_succ_toList, le_cons, ih, h2, Nat.mod_mul, BitVec.toNat_ofNat]

/-- `le(le_bytes_n(v)) = v` where v fits (R9). -/
theorem le_leBytes_of_lt {n v : Nat} (h : v < 2 ^ (8 * n)) : le (leBytes n v).toList = v := by
  rw [le_leBytes, Nat.mod_eq_of_lt h]

@[simp] theorem bytesSlice_getElem {n : Nat} (b : Bytes n) (start len : Nat) (h : start + len ≤ n) (i : Nat)
    (hi : i < len) : (bytesSlice b start len h)[i] = b[start + i] := by
  simp [bytesSlice]

@[simp] theorem bytesOfList_getElem (n : Nat) (l : List Byte) (i : Nat) (h : i < n) :
    (bytesOfList n l)[i] = l.getD i 0 := by
  simp [bytesOfList]

/-- A list of exactly n bytes is the list of the string made from it. -/
theorem bytesOfList_toList {n : Nat} {l : List Byte} (h : l.length = n) : (bytesOfList n l).toList = l := by
  apply List.ext_getElem
  · simp [h]
  · intro i h1 h2
    simp [List.getD_eq_getElem?_getD, h2]

/-- A string made from its own list is itself. -/
@[simp] theorem bytesOfList_of_toList {n : Nat} (b : Bytes n) : bytesOfList n b.toList = b := by
  apply Vector.ext
  intro i hi
  simp [List.getD_eq_getElem?_getD, hi]

/-- What a word write leaves at byte i (R61). -/
@[simp] theorem bytesSetWord_getElem {n : Nat} (b : Bytes n) (j : Nat) (v : Word) (i : Nat) (h : i < n) :
    (bytesSetWord b j v)[i] = if i / 4 = j then v.extractLsb' (8 * (i % 4)) 8 else b[i] := by
  simp [bytesSetWord]

@[simp] theorem leWords_nil : leWords [] = [] := rfl
@[simp] theorem leWords_cons (w : Word) (ws : List Word) :
    leWords (w :: ws) = (leBytes 4 w.toNat).toList ++ leWords ws := rfl

/-- k words are 4k bytes. -/
@[simp] theorem leWords_length (ws : List Word) : (leWords ws).length = 4 * ws.length := by
  induction ws with
  | nil => rfl
  | cons w ws ih => simp [ih]; omega

/-- The word of the four bytes of a word is that word. -/
theorem w32_leBytes (v : Word) : w32 (leBytes 4 v.toNat).toList 0 = v := by
  have h : le (leBytes 4 v.toNat).toList = v.toNat := le_leBytes_of_lt (by simpa using v.isLt)
  have h4 : ((leBytes 4 v.toNat).toList.drop (4 * 0)).take 4 = (leBytes 4 v.toNat).toList :=
    List.take_of_length_le (by simp)
  rw [w32, h4, h, BitVec.ofNat_toNat, BitVec.setWidth_eq]

@[simp] theorem xorBytes_length (a b : List Byte) : (xorBytes a b).length = min a.length b.length := by
  simp [xorBytes]

/-- The j-th byte of an exclusive-or of strings (R153). -/
theorem xorBytes_getElem (a b : List Byte) (j : Nat) (ha : j < a.length) (hb : j < b.length) :
    (xorBytes a b)[j]'(by simp; omega) = a[j] ^^^ b[j] := by
  simp [xorBytes]

/-- Combining twice with one string gives the first string back (R153). -/
theorem xorBytes_cancel (a z : List Byte) (h : a.length ≤ z.length) : xorBytes (xorBytes a z) z = a := by
  induction a generalizing z with
  | nil => simp [xorBytes]
  | cons x t ih =>
    cases z with
    | nil => simp at h
    | cons y u =>
      have := ih u (by simpa using h)
      simp only [xorBytes, List.zipWith_cons_cons] at this ⊢
      rw [this, BitVec.xor_assoc, BitVec.xor_self, BitVec.xor_zero]

end Sys2Proof.Machine
end

