-- ==== Sys2Proof/Laws/Arith.lean ====
section
/-! SUPPORT. The small facts of the algorithms: ranges of field elements, lengths of keystreams and blocks, and the
two directions of each conditional swap. -/

namespace Sys2Proof.Machine

/-! ## The field (R108) -/

theorem p25519_pos : 0 < p25519 := by norm_num [p25519]

theorem p25519_lt : p25519 < 2 ^ 255 := by norm_num [p25519]

theorem fadd_lt (a b : Nat) : fadd a b < p25519 := Nat.mod_lt _ p25519_pos

theorem fmul_lt (a b : Nat) : fmul a b < p25519 := Nat.mod_lt _ p25519_pos

theorem fsub_lt (a b : Nat) : fsub a b < p25519 := by
  have hp : (0 : Int) < (p25519 : Int) := by exact_mod_cast p25519_pos
  have h1 := Int.emod_nonneg ((a : Int) - b) hp.ne'
  have h2 := Int.emod_lt_of_pos ((a : Int) - b) hp
  unfold fsub
  omega

@[simp] theorem fmul_zero (a : Nat) : fmul a 0 = 0 := by simp [fmul]
@[simp] theorem zero_fmul (a : Nat) : fmul 0 a = 0 := by simp [fmul]

theorem decodeU_lt (u : Bytes 32) : decodeU u < p25519 := Nat.mod_lt _ p25519_pos

/-- The ladder's result is a field element (R112). -/
theorem ladder_lt (k u : Nat) : ladder k u < p25519 := by
  unfold ladder
  exact fmul_lt _ _

/-! ## The conditional swap (R109) -/

@[simp] theorem cswap_true (x y : Nat) : cswap true x y = (y, x) := rfl
@[simp] theorem cswap_false (x y : Nat) : cswap false x y = (x, y) := rfl

@[simp] theorem ladderSwap_true (l : Ladder) :
    ladderSwap true l = { x2 := l.x3, z2 := l.z3, x3 := l.x2, z3 := l.z2, swap := l.swap } := rfl
@[simp] theorem ladderSwap_false (l : Ladder) : ladderSwap false l = l := rfl

@[simp] theorem ladderLoop_zero (k u : Nat) (l : Ladder) : ladderLoop k u 0 l = l := rfl
@[simp] theorem ladderLoop_succ (k u t : Nat) (l : Ladder) :
    ladderLoop k u (t + 1) l = ladderLoop k u t (ladderIter u (k.testBit t) l) := rfl

/-! ## ShareSecret (R117) -/

/-- What ShareSecret answers, once. -/
theorem shareSecret_eq (k u : Bytes 32) (lochk : Bool) :
    shareSecret k u lochk =
      if lochk = true ∧ x25519 k u = zeroBytes 32 then .error .lowOrder else .ok (x25519 k u) := rfl

/-- Where ShareSecret answers, it answers the X25519 result. -/
theorem shareSecret_ok {k u : Bytes 32} {lochk : Bool} {s : Bytes 32} (h : shareSecret k u lochk = .ok s) :
    s = x25519 k u ∧ ¬(lochk = true ∧ x25519 k u = zeroBytes 32) := by
  rw [shareSecret_eq] at h
  split at h
  · cases h
  · next hc => exact ⟨(Except.ok.inj h).symm, hc⟩

/-- Where ShareSecret raises an error, the check is on and the result is zero. -/
theorem shareSecret_error {k u : Bytes 32} {lochk : Bool} {e : ErrCode} (h : shareSecret k u lochk = .error e) :
    e = .lowOrder ∧ lochk = true ∧ x25519 k u = zeroBytes 32 := by
  rw [shareSecret_eq] at h
  split at h
  · next hc => exact ⟨(Except.error.inj h).symm, hc⟩
  · cases h

/-! ## Double rounds and blocks -/

@[simp] theorem doubleRounds_zero (x : Matrix) : doubleRounds 0 x = x := rfl
@[simp] theorem doubleRounds_succ (n : Nat) (x : Matrix) :
    doubleRounds (n + 1) x = doubleRounds n (doubleRound x) := rfl

@[simp] theorem arxCore_false (x : Matrix) : arxCore x false = perm20 x := rfl
@[simp] theorem arxCore_true (x : Matrix) : arxCore x true = Vector.zipWith (· + ·) (perm20 x) x := rfl

@[simp] theorem salsaBlocks_zero (k : Bytes 32) (n8 : Bytes 8) (ctr : Nat) : salsaBlocks k n8 ctr 0 = [] := rfl
@[simp] theorem salsaBlocks_succ (k : Bytes 32) (n8 : Bytes 8) (ctr count : Nat) :
    salsaBlocks k n8 ctr (count + 1) = (salsaBlock k n8 ctr).toList ++ salsaBlocks k n8 (ctr + 1) count := rfl

@[simp] theorem salsaBlocks_length (k : Bytes 32) (n8 : Bytes 8) (ctr count : Nat) :
    (salsaBlocks k n8 ctr count).length = 64 * count := by
  induction count generalizing ctr with
  | zero => rfl
  | succ count ih => simp [ih]; omega

/-- A keystream has the length asked for. -/
@[simp] theorem keystream_length (k : Bytes 32) (n8 : Bytes 8) (off n : Nat) :
    (keystream k n8 off n).length = n := by
  simp only [keystream, List.length_take, List.length_drop, salsaBlocks_length]
  omega

/-! ## MAC blocks (R167, R169) -/

@[simp] theorem polyBlocks_length (m : List Byte) : (polyBlocks m).length = (m.length + 15) / 16 := by
  simp [polyBlocks]

@[simp] theorem polyBlocks_nil : polyBlocks [] = [] := rfl

theorem polyStep_lt (r acc : Nat) (blk : List Byte) : polyStep r acc blk < p1305 :=
  Nat.mod_lt _ (by norm_num [p1305])

end Sys2Proof.Machine
end

