-- ==== Sys2Proof/Laws/Memory.lean ====
section
/-! SUPPORT. Association lists and the message buffer: what a read sees after a write, that every operation keeps the
canonical form, and that equal contents in canonical form are equal data. -/

namespace Sys2Proof.Machine

/-! ## Association lists -/

section assoc
variable {α : Type}

@[simp] theorem assocGet_nil (a : Nat) : assocGet ([] : List (Nat × α)) a = none := rfl

/-- A lookup after an update sees the new value at its key and the old ones elsewhere. -/
theorem assocGet_assocSet (l : List (Nat × α)) (a : Nat) (v : α) (b : Nat) :
    assocGet (assocSet l a v) b = if b = a then some v else assocGet l b := by
  induction l with
  | nil => simp [assocSet, assocGet]
  | cons c t ih =>
    obtain ⟨k, w⟩ := c
    simp only [assocSet]
    split
    · rfl
    · split
      · next h1 h2 => subst h2; by_cases hb : b = a <;> simp [assocGet, hb]
      · next h1 h2 =>
        simp only [assocGet]
        by_cases hk : b = k
        · subst hk; simp [show b ≠ a from fun h => h2 h.symm]
        · simp [hk, ih]

@[simp] theorem assocGet_assocSet_same (l : List (Nat × α)) (a : Nat) (v : α) :
    assocGet (assocSet l a v) a = some v := by
  simp [assocGet_assocSet]

theorem assocGet_assocSet_other (l : List (Nat × α)) (v : α) {a b : Nat} (h : b ≠ a) :
    assocGet (assocSet l a v) b = assocGet l b := by
  simp [assocGet_assocSet, h]

/-- A rising list that starts at `lo` starts at anything lower. -/
theorem assocRisingFrom_mono {lo lo' : Nat} (h : lo' ≤ lo) {l : List (Nat × α)}
    (hl : assocRisingFrom lo l = true) : assocRisingFrom lo' l = true := by
  cases l with
  | nil => rfl
  | cons c t =>
    simp only [assocRisingFrom, Bool.and_eq_true, decide_eq_true_eq] at hl ⊢
    exact ⟨h.trans hl.1, hl.2⟩

/-- An update keeps the keys rising. -/
theorem assocRisingFrom_assocSet {lo a : Nat} (v : α) {l : List (Nat × α)} (ha : lo ≤ a)
    (hl : assocRisingFrom lo l = true) : assocRisingFrom lo (assocSet l a v) = true := by
  induction l generalizing lo with
  | nil => simp [assocSet, assocRisingFrom, ha]
  | cons c t ih =>
    obtain ⟨k, w⟩ := c
    simp only [assocRisingFrom, Bool.and_eq_true, decide_eq_true_eq] at hl
    simp only [assocSet]
    split
    · next h => simp [assocRisingFrom, ha, hl.2]; omega
    · split
      · next h1 h2 => subst h2; simp [assocRisingFrom, ha, hl.2]
      · next h1 h2 => simp [assocRisingFrom, hl.1, ih (lo := k + 1) (by omega) hl.2]

theorem assocRising_assocSet (a : Nat) (v : α) {l : List (Nat × α)} (hl : assocRising l = true) :
    assocRising (assocSet l a v) = true :=
  assocRisingFrom_assocSet v (Nat.zero_le a) hl

/-- A rising list holds nothing below its start. -/
theorem assocGet_below {lo a : Nat} {l : List (Nat × α)} (hl : assocRisingFrom lo l = true) (h : a < lo) :
    assocGet l a = none := by
  induction l generalizing lo with
  | nil => rfl
  | cons c t ih =>
    obtain ⟨k, w⟩ := c
    simp only [assocRisingFrom, Bool.and_eq_true, decide_eq_true_eq] at hl
    simp [assocGet, show a ≠ k by omega, ih hl.2 (by omega)]

/-- Two rising lists that give every key the same value are one list. -/
theorem assoc_ext {lo : Nat} {l m : List (Nat × α)} (hl : assocRisingFrom lo l = true)
    (hm : assocRisingFrom lo m = true) (h : ∀ a, assocGet l a = assocGet m a) : l = m := by
  induction l generalizing lo m with
  | nil =>
    cases m with
    | nil => rfl
    | cons c t => have := h c.1; simp [assocGet] at this
  | cons c t ih =>
    obtain ⟨k, w⟩ := c
    cases m with
    | nil => have := h k; simp [assocGet] at this
    | cons d u =>
      obtain ⟨j, x⟩ := d
      simp only [assocRisingFrom, Bool.and_eq_true, decide_eq_true_eq] at hl hm
      have hkj : k = j := by
        rcases Nat.lt_trichotomy k j with hlt | heq | hgt
        · have hk := h k
          simp [assocGet, show k ≠ j by omega, assocGet_below hm.2 (show k < j + 1 by omega)] at hk
        · exact heq
        · have hj := h j
          simp [assocGet, show j ≠ k by omega, assocGet_below hl.2 (show j < k + 1 by omega)] at hj
      subst hkj
      have hw := h k
      simp only [assocGet, if_true, Option.some.injEq] at hw
      subst hw
      congr 1
      refine ih hl.2 hm.2 fun a => ?_
      by_cases ha : a = k
      · subst ha
        rw [assocGet_below hl.2 (Nat.lt_succ_self _), assocGet_below hm.2 (Nat.lt_succ_self _)]
      · simpa [assocGet, ha] using h a

/-- What holds of every key of a list and of the new key holds of every key after an update. -/
theorem assocSet_all (p : Nat → Bool) (l : List (Nat × α)) (a : Nat) (v : α)
    (hl : (l.all fun c => p c.1) = true) (ha : p a = true) :
    ((assocSet l a v).all fun c => p c.1) = true := by
  induction l with
  | nil => simp [assocSet, ha]
  | cons c t ih =>
    obtain ⟨k, w⟩ := c
    simp only [List.all_cons, Bool.and_eq_true] at hl
    simp only [assocSet]
    split
    · simp [ha, hl.1, hl.2]
    · split
      · simp [ha, hl.2]
      · simp [hl.1, ih hl.2]

end assoc

/-! ## The message buffer -/

@[simp] theorem Memory.write_draw (m : Memory) (i : Nat) (b : Byte) : (m.write i b).draw = m.draw := rfl

/-- A read after a write sees the new byte there and the old bytes elsewhere. -/
theorem Memory.read_write (m : Memory) (i : Nat) (b : Byte) (j : Nat) :
    (m.write i b).read j = if j = i then b else m.read j := by
  simp only [Memory.read, Memory.write, assocGet_assocSet]
  split <;> rfl

@[simp] theorem Memory.read_write_same (m : Memory) (i : Nat) (b : Byte) : (m.write i b).read i = b := by
  simp [Memory.read_write]

theorem Memory.read_write_other (m : Memory) (b : Byte) {i j : Nat} (h : j ≠ i) :
    (m.write i b).read j = m.read j := by
  simp [Memory.read_write, h]

theorem Memory.wf_write {m : Memory} (i : Nat) (b : Byte) (h : m.wf = true) : (m.write i b).wf = true :=
  assocRising_assocSet i b h

theorem Memory.within_write {m : Memory} {n i : Nat} (b : Byte) (h : m.within n = true) (hi : i < n) :
    (m.write i b).within n = true :=
  assocSet_all (fun k => decide (k < n)) m.cells i b h (by simpa using hi)

@[simp] theorem Memory.writeSlice_nil (m : Memory) (start : Nat) : m.writeSlice start [] = m := rfl
@[simp] theorem Memory.writeSlice_cons (m : Memory) (start : Nat) (b : Byte) (t : List Byte) :
    m.writeSlice start (b :: t) = (m.write start b).writeSlice (start + 1) t := rfl

@[simp] theorem Memory.writeSlice_draw (m : Memory) (start : Nat) (bs : List Byte) :
    (m.writeSlice start bs).draw = m.draw := by
  induction bs generalizing m start with
  | nil => rfl
  | cons b t ih => simp [ih]

/-- A read after a slice write sees the slice inside it and the old bytes outside. -/
theorem Memory.read_writeSlice (m : Memory) (start : Nat) (bs : List Byte) (j : Nat) :
    (m.writeSlice start bs).read j =
      if start ≤ j ∧ j < start + bs.length then bs.getD (j - start) 0 else m.read j := by
  induction bs generalizing m start with
  | nil => simp
  | cons b t ih =>
    rw [Memory.writeSlice_cons, ih, Memory.read_write]
    by_cases h1 : j = start
    · subst h1; simp
    · by_cases h2 : start + 1 ≤ j ∧ j < start + 1 + t.length
      · have h3 : start ≤ j ∧ j < start + (b :: t).length := by simp; omega
        rw [if_pos h2, if_pos h3, show j - start = (j - (start + 1)) + 1 by omega]
        simp
      · have h3 : ¬(start ≤ j ∧ j < start + (b :: t).length) := by simp; omega
        rw [if_neg h2, if_neg h3, if_neg h1]

theorem Memory.read_writeSlice_in (m : Memory) (start : Nat) (bs : List Byte) (j : Nat) (h : j < bs.length) :
    (m.writeSlice start bs).read (start + j) = bs[j] := by
  rw [Memory.read_writeSlice, if_pos (by omega)]
  simp [List.getD_eq_getElem?_getD, h]

theorem Memory.read_writeSlice_out (m : Memory) (start : Nat) (bs : List Byte) {j : Nat}
    (h : j < start ∨ start + bs.length ≤ j) : (m.writeSlice start bs).read j = m.read j := by
  rw [Memory.read_writeSlice, if_neg (by omega)]

theorem Memory.wf_writeSlice {m : Memory} (start : Nat) (bs : List Byte) (h : m.wf = true) :
    (m.writeSlice start bs).wf = true := by
  induction bs generalizing m start with
  | nil => exact h
  | cons b t ih => exact ih (start + 1) (Memory.wf_write start b h)

theorem Memory.within_writeSlice {m : Memory} {n : Nat} (start : Nat) (bs : List Byte) (h : m.within n = true)
    (hb : start + bs.length ≤ n) : (m.writeSlice start bs).within n = true := by
  induction bs generalizing m start with
  | nil => exact h
  | cons b t ih =>
    simp only [List.length_cons] at hb
    exact ih (start + 1) (Memory.within_write b h (by omega)) (by omega)

@[simp] theorem Memory.slice_length (m : Memory) (start n : Nat) : (m.slice start n).length = n := by
  simp [Memory.slice]

@[simp] theorem Memory.slice_getElem (m : Memory) (start n j : Nat) (h : j < (m.slice start n).length) :
    (m.slice start n)[j] = m.read (start + j) := by
  simp [Memory.slice]

/-- The slice that was just written. -/
theorem Memory.slice_writeSlice (m : Memory) (start : Nat) (bs : List Byte) :
    (m.writeSlice start bs).slice start bs.length = bs := by
  apply List.ext_getElem
  · simp
  · intro j h1 h2
    rw [Memory.slice_getElem, Memory.read_writeSlice_in m start bs j h2]

/-- A slice outside what was written. -/
theorem Memory.slice_writeSlice_out (m : Memory) (start : Nat) (bs : List Byte) (a n : Nat)
    (h : a + n ≤ start ∨ start + bs.length ≤ a) : (m.writeSlice start bs).slice a n = m.slice a n := by
  apply List.ext_getElem
  · simp
  · intro j h1 h2
    rw [Memory.slice_getElem, Memory.slice_getElem]
    exact Memory.read_writeSlice_out m start bs (by simp at h1; omega)

theorem Memory.wf_writeWord {m : Memory} (j : Nat) (v : Word) (h : m.wf = true) : (m.writeWord j v).wf = true :=
  Memory.wf_writeSlice _ _ h

theorem Memory.within_writeWord {m : Memory} {n j : Nat} (v : Word) (h : m.within n = true)
    (hj : 4 * j + 4 ≤ n) : (m.writeWord j v).within n = true :=
  Memory.within_writeSlice _ _ h (by simpa using hj)

/-- BUF right after a reset is in canonical form. -/
theorem Memory.wf_reset (draw : Nat) : (Memory.reset draw).wf = true := rfl

/-- Two buffers in canonical form with the same draw and the same listed bytes are equal data. -/
theorem Memory.ext_of_wf {m m' : Memory} (h : m.wf = true) (h' : m'.wf = true) (hd : m.draw = m'.draw)
    (hc : ∀ i, assocGet m.cells i = assocGet m'.cells i) : m = m' := by
  obtain ⟨c, d⟩ := m
  obtain ⟨c', d'⟩ := m'
  have hcc : c = c' := assoc_ext h h' hc
  cases hcc
  cases hd
  rfl

end Sys2Proof.Machine
end

