-- ==== Sys2Proof/Laws/State.lean ====
section
/-! SUPPORT. What each named update of the state leaves in each field, so that no later proof unfolds a record
update. -/

namespace Sys2Proof.Machine

/-! ## Accept (R91) -/

@[simp] theorem CoreState.accept_data (c : CoreState) (w : Word) : (c.accept w).data = c.data := rfl
@[simp] theorem CoreState.accept_done (c : CoreState) (w : Word) : (c.accept w).done = false := rfl
@[simp] theorem CoreState.accept_werr (c : CoreState) (w : Word) : (c.accept w).werr = c.werr := rfl
@[simp] theorem CoreState.accept_err (c : CoreState) (w : Word) : (c.accept w).err = .ok := rfl
@[simp] theorem CoreState.accept_pending (c : CoreState) (w : Word) :
    (c.accept w).pending = some { word := w, snapshot := c.data } := rfl
@[simp] theorem CoreState.accept_busy (c : CoreState) (w : Word) : (c.accept w).busy = true := rfl
@[simp] theorem CoreState.accept_snapshot (c : CoreState) (w : Word) : (c.accept w).snapshot = c.data := rfl

/-! ## Completion (R92, R211, R212) -/

@[simp] theorem CoreState.succeed_data (c : CoreState) (d : Operands) : (c.succeed d).data = d := rfl
@[simp] theorem CoreState.succeed_done (c : CoreState) (d : Operands) : (c.succeed d).done = true := rfl
@[simp] theorem CoreState.succeed_werr (c : CoreState) (d : Operands) : (c.succeed d).werr = c.werr := rfl
@[simp] theorem CoreState.succeed_err (c : CoreState) (d : Operands) : (c.succeed d).err = .ok := rfl
@[simp] theorem CoreState.succeed_pending (c : CoreState) (d : Operands) : (c.succeed d).pending = none := rfl
@[simp] theorem CoreState.succeed_busy (c : CoreState) (d : Operands) : (c.succeed d).busy = false := rfl

@[simp] theorem CoreState.fail_data (c : CoreState) (e : ErrCode) : (c.fail e).data = c.data := rfl
@[simp] theorem CoreState.fail_done (c : CoreState) (e : ErrCode) : (c.fail e).done = true := rfl
@[simp] theorem CoreState.fail_werr (c : CoreState) (e : ErrCode) : (c.fail e).werr = c.werr := rfl
@[simp] theorem CoreState.fail_err (c : CoreState) (e : ErrCode) : (c.fail e).err = e := rfl
@[simp] theorem CoreState.fail_pending (c : CoreState) (e : ErrCode) : (c.fail e).pending = none := rfl
@[simp] theorem CoreState.fail_busy (c : CoreState) (e : ErrCode) : (c.fail e).busy = false := rfl

@[simp] theorem CoreState.complete_ok (c : CoreState) (d : Operands) : c.complete (.ok d) = c.succeed d := rfl
@[simp] theorem CoreState.complete_error (c : CoreState) (e : ErrCode) : c.complete (.error e) = c.fail e := rfl

@[simp] theorem State.finish_ok (s : State) (d : Operands) : s.finish (.ok d) = s.completedWith d := rfl
@[simp] theorem State.finish_error (s : State) (e : ErrCode) : s.finish (.error e) = s.failedWith e := rfl
@[simp] theorem State.finish_cfg (s : State) (r : Except ErrCode Operands) : (s.finish r).cfg = s.cfg := rfl
@[simp] theorem State.finish_core (s : State) (r : Except ErrCode Operands) :
    (s.finish r).core = s.core.complete r := rfl
@[simp] theorem State.finish_host (s : State) (r : Except ErrCode Operands) : (s.finish r).host = s.host := rfl
@[simp] theorem State.finish_rst (s : State) (r : Except ErrCode Operands) : (s.finish r).rst = s.rst := rfl
@[simp] theorem State.finish_turns (s : State) (r : Except ErrCode Operands) : (s.finish r).turns = s.turns := rfl

@[simp] theorem State.completedWith_cfg (s : State) (d : Operands) : (s.completedWith d).cfg = s.cfg := rfl
@[simp] theorem State.completedWith_core (s : State) (d : Operands) :
    (s.completedWith d).core = s.core.succeed d := rfl
@[simp] theorem State.completedWith_host (s : State) (d : Operands) : (s.completedWith d).host = s.host := rfl
@[simp] theorem State.completedWith_rst (s : State) (d : Operands) : (s.completedWith d).rst = s.rst := rfl
@[simp] theorem State.completedWith_turns (s : State) (d : Operands) : (s.completedWith d).turns = s.turns := rfl

@[simp] theorem State.failedWith_cfg (s : State) (e : ErrCode) : (s.failedWith e).cfg = s.cfg := rfl
@[simp] theorem State.failedWith_core (s : State) (e : ErrCode) : (s.failedWith e).core = s.core.fail e := rfl
@[simp] theorem State.failedWith_host (s : State) (e : ErrCode) : (s.failedWith e).host = s.host := rfl
@[simp] theorem State.failedWith_rst (s : State) (e : ErrCode) : (s.failedWith e).rst = s.rst := rfl
@[simp] theorem State.failedWith_turns (s : State) (e : ErrCode) : (s.failedWith e).turns = s.turns := rfl

@[simp] theorem State.accepted_cfg (s : State) (w : Word) : (s.accepted w).cfg = s.cfg := rfl
@[simp] theorem State.accepted_core (s : State) (w : Word) : (s.accepted w).core = s.core.accept w := rfl
@[simp] theorem State.accepted_host (s : State) (w : Word) : (s.accepted w).host = s.host := rfl
@[simp] theorem State.accepted_rst (s : State) (w : Word) : (s.accepted w).rst = s.rst := rfl
@[simp] theorem State.accepted_turns (s : State) (w : Word) : (s.accepted w).turns = s.turns := rfl

/-! ## STATUS writes (R26, R241) -/

@[simp] theorem CoreState.writeStatus_data (c : CoreState) (v : Word) : (c.writeStatus v).data = c.data := rfl
@[simp] theorem CoreState.writeStatus_done (c : CoreState) (v : Word) :
    (c.writeStatus v).done = (c.done && !v.getLsbD 1) := rfl
@[simp] theorem CoreState.writeStatus_werr (c : CoreState) (v : Word) :
    (c.writeStatus v).werr = (c.werr && !v.getLsbD 2) := rfl
@[simp] theorem CoreState.writeStatus_err (c : CoreState) (v : Word) : (c.writeStatus v).err = c.err := rfl
@[simp] theorem CoreState.writeStatus_pending (c : CoreState) (v : Word) :
    (c.writeStatus v).pending = c.pending := rfl
@[simp] theorem CoreState.writeStatus_busy (c : CoreState) (v : Word) : (c.writeStatus v).busy = c.busy := rfl

@[simp] theorem CoreState.dropWrite_data (c : CoreState) : c.dropWrite.data = c.data := rfl
@[simp] theorem CoreState.dropWrite_done (c : CoreState) : c.dropWrite.done = c.done := rfl
@[simp] theorem CoreState.dropWrite_werr (c : CoreState) : c.dropWrite.werr = true := rfl
@[simp] theorem CoreState.dropWrite_err (c : CoreState) : c.dropWrite.err = c.err := rfl
@[simp] theorem CoreState.dropWrite_pending (c : CoreState) : c.dropWrite.pending = c.pending := rfl
@[simp] theorem CoreState.dropWrite_busy (c : CoreState) : c.dropWrite.busy = c.busy := rfl

/-! ## Reset (R235) -/

@[simp] theorem CoreState.rst_data (c : CoreState) : c.rst.data = Operands.reset (c.data.buf.draw + 1) := rfl
@[simp] theorem CoreState.rst_done (c : CoreState) : c.rst.done = false := rfl
@[simp] theorem CoreState.rst_werr (c : CoreState) : c.rst.werr = false := rfl
@[simp] theorem CoreState.rst_err (c : CoreState) : c.rst.err = .ok := rfl
@[simp] theorem CoreState.rst_pending (c : CoreState) : c.rst.pending = none := rfl
@[simp] theorem CoreState.rst_busy (c : CoreState) : c.rst.busy = false := rfl

/-! ## BUF operands (R62) -/

@[simp] theorem Operands.withMessage_buf (d : Operands) (bs : List Byte) :
    (d.withMessage bs).buf = d.buf.writeSlice 16 bs := rfl
@[simp] theorem Operands.withMessage_cursor (d : Operands) (bs : List Byte) :
    (d.withMessage bs).cursor = d.cursor := rfl
@[simp] theorem Operands.withTag_buf (d : Operands) (t : Bytes 16) :
    (d.withTag t).buf = d.buf.writeSlice 0 t.toList := rfl
@[simp] theorem Operands.withTag_cursor (d : Operands) (t : Bytes 16) : (d.withTag t).cursor = d.cursor := rfl

/-- A message write is a write of the BUF field alone. -/
theorem Operands.withMessage_eq (d : Operands) (bs : List Byte) :
    d.withMessage bs = { d with buf := d.buf.writeSlice 16 bs } := rfl

/-- A tag write is a write of the BUF field alone. -/
theorem Operands.withTag_eq (d : Operands) (t : Bytes 16) :
    d.withTag t = { d with buf := d.buf.writeSlice 0 t.toList } := rfl

/-! ## Turns and fetch -/

@[simp] theorem State.dropTurn_cfg (s : State) : s.dropTurn.cfg = s.cfg := rfl
@[simp] theorem State.dropTurn_core (s : State) : s.dropTurn.core = s.core := rfl
@[simp] theorem State.dropTurn_host (s : State) : s.dropTurn.host = s.host := rfl
@[simp] theorem State.dropTurn_turns (s : State) : s.dropTurn.turns = s.turns.tail := rfl

@[simp] theorem State.dropTurn_rst (s : State) : s.dropTurn.rst = s.rst := rfl

@[simp] theorem State.driveRst_cfg (s : State) (l : Bool) : (s.driveRst l).cfg = s.cfg := rfl
@[simp] theorem State.driveRst_core (s : State) (l : Bool) :
    (s.driveRst l).core = if l || s.rst then s.core.rst else s.core := rfl
@[simp] theorem State.driveRst_rst (s : State) (l : Bool) : (s.driveRst l).rst = l := rfl
@[simp] theorem State.driveRst_host (s : State) (l : Bool) : (s.driveRst l).host = s.host := rfl
@[simp] theorem State.driveRst_turns (s : State) (l : Bool) : (s.driveRst l).turns = s.turns := rfl

/-- What a step leaves while `rst` is released, and while it is asserted. -/
theorem State.held_low {s : State} (h : s.rst = false) : s.held = s := by simp [State.held, h]
theorem State.held_high {s : State} (h : s.rst = true) : s.held = { s with core := s.core.rst } := by
  simp [State.held, h]
@[simp] theorem State.held_cfg (s : State) : s.held.cfg = s.cfg := by unfold State.held; split <;> rfl
@[simp] theorem State.held_rst (s : State) : s.held.rst = s.rst := by unfold State.held; split <;> rfl
@[simp] theorem State.held_host (s : State) : s.held.host = s.host := by unfold State.held; split <;> rfl
@[simp] theorem State.held_turns (s : State) : s.held.turns = s.turns := by unfold State.held; split <;> rfl

@[simp] theorem heldOutcome_next (s : State) : heldOutcome (.next s) = .next s.held := rfl
@[simp] theorem heldOutcome_fault (e : Fault) : heldOutcome (.fault e) = .fault e := rfl
@[simp] theorem heldOutcome_refused (e : Refusal) : heldOutcome (.refused e) = .refused e := rfl

/-- Where an outcome under the level of `rst` goes on, the step did, and the state is held. -/
theorem heldOutcome_inv {o : Host.Outcome State Fault Refusal} {t : State} (h : heldOutcome o = .next t) :
    ∃ u, o = .next u ∧ t = u.held := by
  cases o with
  | next u => exact ⟨u, rfl, (Host.Outcome.next.inj h).symm⟩
  | fault e => cases h
  | refused e => cases h

@[simp] theorem State.withFetchWord_rst (s : State) (n w : Nat) : (s.withFetchWord n w).rst = false := rfl
@[simp] theorem State.withFetchWord_cfg (s : State) (n w : Nat) : (s.withFetchWord n w).cfg = s.cfg := rfl
@[simp] theorem State.withFetchWord_host (s : State) (n w : Nat) : (s.withFetchWord n w).host = s.host := rfl
@[simp] theorem State.withFetchWord_data (s : State) (n w : Nat) :
    (s.withFetchWord n w).core.data = s.core.data := rfl
@[simp] theorem State.withFetchWord_pending (s : State) (n w : Nat) :
    (s.withFetchWord n w).core.pending =
      some { word := BitVec.ofNat 32 (w % 2 ^ n), snapshot := s.core.data } := rfl

/-! ## The host's updates -/

@[simp] theorem HostAgent.goto_prog (h : HostAgent) (pc : Nat) : (h.goto pc).prog = h.prog := rfl
@[simp] theorem HostAgent.goto_pc (h : HostAgent) (pc : Nat) : (h.goto pc).pc = pc := rfl
@[simp] theorem HostAgent.goto_names (h : HostAgent) (pc : Nat) : (h.goto pc).names = h.names := rfl
@[simp] theorem HostAgent.goto_resp (h : HostAgent) (pc : Nat) : (h.goto pc).resp = h.resp := rfl

@[simp] theorem HostAgent.gotWord_prog (h : HostAgent) (n : Nat) (v : Word) (r : Resp) :
    (h.gotWord n v r).prog = h.prog := rfl
@[simp] theorem HostAgent.gotWord_pc (h : HostAgent) (n : Nat) (v : Word) (r : Resp) :
    (h.gotWord n v r).pc = h.pc + 1 := rfl
@[simp] theorem HostAgent.gotWord_names (h : HostAgent) (n : Nat) (v : Word) (r : Resp) :
    (h.gotWord n v r).names = assocSet h.names n v := rfl
@[simp] theorem HostAgent.gotWord_resp (h : HostAgent) (n : Nat) (v : Word) (r : Resp) :
    (h.gotWord n v r).resp = some r := rfl

@[simp] theorem HostAgent.gotResp_prog (h : HostAgent) (r : Resp) : (h.gotResp r).prog = h.prog := rfl
@[simp] theorem HostAgent.gotResp_pc (h : HostAgent) (r : Resp) : (h.gotResp r).pc = h.pc + 1 := rfl
@[simp] theorem HostAgent.gotResp_names (h : HostAgent) (r : Resp) : (h.gotResp r).names = h.names := rfl
@[simp] theorem HostAgent.gotResp_resp (h : HostAgent) (r : Resp) : (h.gotResp r).resp = some r := rfl

@[simp] theorem HostAgent.gotAccess_read (h : HostAgent) (n : Nat) (v : Word) (r : Resp) :
    h.gotAccess .read n v r = h.gotWord n v r := rfl
@[simp] theorem HostAgent.gotAccess_write (h : HostAgent) (n : Nat) (v w : Word) (r : Resp) :
    h.gotAccess (.write w) n v r = h.gotResp r := rfl

@[simp] theorem State.withProgram_core (s : State) (p : List HostPrim) : (s.withProgram p).core = s.core := rfl
@[simp] theorem State.withProgram_prog (s : State) (p : List HostPrim) : (s.withProgram p).host.prog = p := rfl
@[simp] theorem State.withProgram_pc (s : State) (p : List HostPrim) : (s.withProgram p).host.pc = 0 := rfl

end Sys2Proof.Machine
end

