-- ==== Sys2Proof/Laws/Step.lean ====
section
/-! SUPPORT. What a command, a transaction, a host step and a step can do, each said once, so that later proofs cite
these lemmas and do not unfold the definitions. -/

namespace Sys2Proof.Machine

/-! ## Commands -/

/-- The pseudocode of every command, over the snapshot and the live operands. -/
def commandBody (cfg : Params) : Instr → Operands → Operands → Except ErrCode Operands
  | .nop, _, live => nopBody live
  | .agree, snap, live => agreeBody snap live
  | .hkey, snap, live => hkeyBody snap live
  | .hsalsa, snap, live => hsalsaBody snap live
  | .ksInit, snap, live => ksInitBody snap live
  | .ksOtk, snap, live => ksOtkBody snap live
  | .ksXor, snap, live => ksXorBody cfg snap live
  | .poly, snap, live => polyBody cfg snap live
  | .sealBox, snap, live => sealBody cfg snap live
  | .openBox, snap, live => openBody cfg snap live
  | .clear, _, live => clearBody live

/-- Every command completes with the outcome of its pseudocode (R92, R211). -/
theorem exec_eq_finish (i : Instr) (s : State) :
    exec i s = .next (s.finish (commandBody s.cfg i s.core.snapshot s.core.data)) := by
  cases i <;> rfl

/-- A next state of a command is its completion. -/
theorem exec_next {i : Instr} {s t : State} (h : exec i s = .next t) :
    t = s.finish (commandBody s.cfg i s.core.snapshot s.core.data) := by
  rw [exec_eq_finish] at h
  injection h with h
  exact h.symm

/-- What an outcome of a command's pseudocode leaves: the new operands, or only STATUS changed. -/
theorem finish_cases (s : State) (r : Except ErrCode Operands) :
    (∃ d, r = .ok d ∧ s.finish r = s.completedWith d) ∨ (∃ e, r = .error e ∧ s.finish r = s.failedWith e) := by
  cases r with
  | ok d => exact .inl ⟨d, rfl, rfl⟩
  | error e => exact .inr ⟨e, rfl, rfl⟩

theorem tooLong_iff (d : Operands) (cfg : Params) : d.tooLong cfg = true ↔ d.overLong cfg := by
  exact decide_eq_true_iff

theorem exhausted_iff (d : Operands) (n : Nat) : d.cursor.exhausted n = true ↔ d.runsOut n := by
  exact decide_eq_true_iff

/-- A message that is not too long lies inside BUF. -/
theorem not_overLong {d : Operands} {cfg : Params} (h : ¬ d.overLong cfg) :
    16 + d.len.toNat ≤ cfg.bufBytes := by
  simp only [Operands.overLong, Params.bufBytes, not_lt] at h ⊢
  omega

@[simp] theorem Operands.message_length (d : Operands) : d.message.length = d.len.toNat := by
  simp [Operands.message, Operands.length]

@[simp] theorem Operands.tagSlot_length (d : Operands) : d.tagSlot.length = 16 := by
  simp [Operands.tagSlot]

@[simp] theorem boxKeystream_length (snap : Operands) (s : Bytes 32) :
    (boxKeystream snap s).length = 32 + snap.len.toNat := by
  simp [boxKeystream, Operands.length]

@[simp] theorem boxCipher_length (snap : Operands) (z : List Byte) :
    (boxCipher snap z).length = min snap.len.toNat (z.length - 32) := by
  simp [boxCipher]

/-- The ciphertext, or the plaintext, that SEAL and OPEN compute is as long as the message. -/
theorem boxCipher_boxKeystream_length (snap : Operands) (s : Bytes 32) :
    (boxCipher snap (boxKeystream snap s)).length = snap.len.toNat := by
  simp

/-- What the commands without an error condition answer. -/
theorem nopBody_ok {live d : Operands} (h : nopBody live = .ok d) : d = live := (Except.ok.inj h).symm
theorem clearBody_ok {live d : Operands} (h : clearBody live = .ok d) :
    d = { Operands.reset 0 with ctrl := live.ctrl, len := live.len, buf := live.buf } := (Except.ok.inj h).symm
theorem hsalsaBody_ok {snap live d : Operands} (h : hsalsaBody snap live = .ok d) :
    d = { live with subkey := hsalsa20 snap.ss snap.noncePrefix } := (Except.ok.inj h).symm
theorem hkeyBody_ok {snap live d : Operands} (h : hkeyBody snap live = .ok d) :
    d = { live with ss := hsalsa20 snap.ss (zeroBytes 16) } := (Except.ok.inj h).symm
theorem ksInitBody_ok {snap live d : Operands} (h : ksInitBody snap live = .ok d) :
    d = { live with cursor := { cur := true, key := snap.subkey, nonce := snap.nonceSuffix, off := 0 } } :=
  (Except.ok.inj h).symm

/-- What AGREE's pseudocode answers. -/
theorem agreeBody_ok {snap live d : Operands} (h : agreeBody snap live = .ok d) :
    ¬ snap.lowOrder ∧ d = { live with ss := snap.sharedSecret } := by
  unfold agreeBody at h
  split at h
  · next s hs =>
    obtain ⟨rfl, hn⟩ := shareSecret_ok hs
    cases h
    exact ⟨hn, rfl⟩
  · cases h

/-- What KS_OTK's pseudocode answers. -/
theorem ksOtkBody_ok {snap live d : Operands} (h : ksOtkBody snap live = .ok d) :
    snap.cursor.cur = true ∧ ¬ snap.runsOut 32 ∧
      d = { live with
        otk := bytesOfList 32 (snap.cursor.emit 32)
        cursor := { live.cursor with off := snap.cursor.off + 32 } } := by
  unfold ksOtkBody at h
  split at h
  · cases h
  · next hc =>
    split at h
    · cases h
    · next he =>
      cases h
      exact ⟨by simpa using hc, fun hr => he ((exhausted_iff snap 32).2 hr), rfl⟩

/-- What KS_XOR's pseudocode answers. -/
theorem ksXorBody_ok {cfg : Params} {snap live d : Operands} (h : ksXorBody cfg snap live = .ok d) :
    ¬ snap.overLong cfg ∧ snap.cursor.cur = true ∧ ¬ snap.runsOut snap.len.toNat ∧
      d = { live with
        buf := live.buf.writeSlice 16 (xorBytes snap.message (snap.cursor.emit snap.length))
        cursor := { live.cursor with off := snap.cursor.off + BitVec.ofNat 64 snap.length } } := by
  unfold ksXorBody at h
  split at h
  · cases h
  · next hl =>
    split at h
    · cases h
    · next hc =>
      split at h
      · cases h
      · next he =>
        cases h
        exact ⟨fun ho => hl ((tooLong_iff snap cfg).2 ho), by simpa using hc,
          fun hr => he ((exhausted_iff snap _).2 hr), rfl⟩

/-- What POLY's pseudocode answers. -/
theorem polyBody_ok {cfg : Params} {snap live d : Operands} (h : polyBody cfg snap live = .ok d) :
    ¬ snap.overLong cfg ∧ d = live.withTag (poly1305 snap.otk snap.message) := by
  unfold polyBody at h
  split at h
  · cases h
  · next hl => cases h; exact ⟨fun ho => hl ((tooLong_iff snap cfg).2 ho), rfl⟩

/-- What SEAL's pseudocode answers. -/
theorem sealBody_ok {cfg : Params} {snap live d : Operands} (h : sealBody cfg snap live = .ok d) :
    ¬ snap.overLong cfg ∧ ¬ snap.lowOrder ∧
      ∃ z ct, z = boxKeystream snap snap.sharedSecret ∧ ct = boxCipher snap z ∧
        d = (live.withTag (poly1305 (boxOtk z) ct)).withMessage ct := by
  unfold sealBody at h
  split at h
  · cases h
  · next hl =>
    split at h
    · cases h
    · next s hs =>
      obtain ⟨rfl, hn⟩ := shareSecret_ok hs
      cases h
      exact ⟨fun ho => hl ((tooLong_iff snap cfg).2 ho), hn, _, _, rfl, rfl, rfl⟩

/-- What OPEN's pseudocode answers. -/
theorem openBody_ok {cfg : Params} {snap live d : Operands} (h : openBody cfg snap live = .ok d) :
    ¬ snap.overLong cfg ∧ ¬ snap.lowOrder ∧
      ∃ z, z = boxKeystream snap snap.sharedSecret ∧
        ctEq16 (poly1305 (boxOtk z) snap.message) (bytesOfList 16 snap.tagSlot) = true ∧
        d = live.withMessage (boxCipher snap z) := by
  unfold openBody at h
  split at h
  · cases h
  · next hl =>
    split at h
    · cases h
    · next s hs =>
      obtain ⟨rfl, hn⟩ := shareSecret_ok hs
      simp only at h
      split at h
      · next he => cases h; exact ⟨fun ho => hl ((tooLong_iff snap cfg).2 ho), hn, _, rfl, he, rfl⟩
      · cases h

/-! ## The engine -/

/-- The engine with nothing pending does nothing. -/
theorem engineStep_idle {s : State} (h : s.core.pending = none) : engineStep s = .next s := by
  simp [engineStep, h]

/-- The engine with a word pending that decodes. -/
theorem engineStep_decoded {s : State} {p : Pending} {i : Instr} (h : s.core.pending = some p)
    (hd : decodeWord p.word = .command i) : engineStep s = exec i s := by
  simp [engineStep, h, hd]

/-- The engine with an illegal word pending. -/
theorem engineStep_illegal {s : State} {p : Pending} {r : DecodeReject} (h : s.core.pending = some p)
    (hd : decodeWord p.word = .illegal r) : engineStep s = .next (s.failedWith .illegalCmd) := by
  simp [engineStep, h, hd, completeIllegal]

/-- What the engine's step leads to. -/
theorem engineStep_cases {s t : State} (h : engineStep s = .next t) :
    (s.core.pending = none ∧ t = s) ∨
    (∃ p i, s.core.pending = some p ∧ decodeWord p.word = .command i ∧
      t = s.finish (commandBody s.cfg i s.core.snapshot s.core.data)) ∨
    (∃ p r, s.core.pending = some p ∧ decodeWord p.word = .illegal r ∧ t = s.failedWith .illegalCmd) := by
  cases hp : s.core.pending with
  | none =>
    rw [engineStep_idle hp] at h
    injection h with h
    exact .inl ⟨rfl, h.symm⟩
  | some p =>
    cases hd : decodeWord p.word with
    | command i =>
      rw [engineStep_decoded hp hd] at h
      exact .inr (.inl ⟨p, i, rfl, hd, exec_next h⟩)
    | illegal r =>
      rw [engineStep_illegal hp hd] at h
      injection h with h
      exact .inr (.inr ⟨p, r, rfl, hd, h.symm⟩)

/-! ## Transactions and host steps -/

/-- An offset the window gives is inside it. -/
theorem windowOffset_lt {cfg : Params} {addr a : Nat} (h : windowOffset cfg addr = some a) :
    a < cfg.windowBytes := by
  unfold windowOffset at h
  split at h
  · next hc => cases h; exact hc.2
  · cases h

/-- The window's offset of `BASE + a`. -/
theorem windowOffset_base {cfg : Params} {a : Nat} (h : a < cfg.windowBytes) :
    windowOffset cfg (cfg.base + a) = some a := by
  simp [windowOffset, h]

/-- What a transaction that the CORE answers leaves and returns. -/
theorem transact_cases {c : CoreState} {cfg : Params} {op : BusOp} {r : BusResult}
    (h : c.transact cfg op = some r) :
    ∃ a, windowOffset cfg op.addr = some a ∧
      ((busLegal op a = false ∧ r = { core := c, data := 0, resp := .buserr }) ∨
       (busLegal op a = true ∧ op.access = .read ∧
          r = { core := c, data := c.readPort cfg (portAt a), resp := .okay }) ∨
       (∃ v, busLegal op a = true ∧ op.access = .write v ∧
          r = { core := c.writePort v (portAt a), data := 0, resp := .okay })) := by
  unfold CoreState.transact at h
  split at h
  · cases h
  · next a ha =>
    refine ⟨a, ha, ?_⟩
    split at h
    · next hl =>
      split at h
      · next hr => injection h with h; exact .inr (.inl ⟨hl, hr, h.symm⟩)
      · next v hw => injection h with h; exact .inr (.inr ⟨v, hl, hw, h.symm⟩)
    · next hl => injection h with h; exact .inl ⟨by simpa using hl, h.symm⟩

/-- A legal word access is one of these two. -/
@[simp] theorem busLegal_memRead (cfg : Params) (a b : Nat) : busLegal (memRead cfg a) b = (b % 4 == 0) := by
  simp [busLegal, memRead]
@[simp] theorem busLegal_memWrite (cfg : Params) (a b : Nat) (v : Word) :
    busLegal (memWrite cfg a v) b = (b % 4 == 0) := by
  simp [busLegal, memWrite]

/-- `MemRead(a, 4)` at an aligned offset of the window. -/
theorem transact_memRead (c : CoreState) {cfg : Params} {a : Nat} (h4 : a % 4 = 0) (h : a < cfg.windowBytes) :
    c.transact cfg (memRead cfg a) = some { core := c, data := c.readPort cfg (portAt a), resp := .okay } := by
  simp [CoreState.transact, memRead, windowOffset_base h, busLegal, h4]

/-- `MemWrite(a, 4, v)` at an aligned offset of the window. -/
theorem transact_memWrite (c : CoreState) {cfg : Params} {a : Nat} (v : Word) (h4 : a % 4 = 0)
    (h : a < cfg.windowBytes) :
    c.transact cfg (memWrite cfg a v) = some { core := c.writePort v (portAt a), data := 0, resp := .okay } := by
  simp [CoreState.transact, memWrite, windowOffset_base h, busLegal, h4]

/-- The offset space below 0x1000 is always inside the window. -/
theorem lt_windowBytes {cfg : Params} {a : Nat} (h : a < 0x1000) : a < cfg.windowBytes := by
  simp only [Params.windowBytes]; omega

/-- What a write to a port leaves: a STATUS write, a dropped write, or the idle write. -/
theorem writePort_cases (c : CoreState) (v : Word) (p : Port) :
    (p = .status ∧ c.writePort v p = c.writeStatus v) ∨
    (p ≠ .status ∧ c.busy = true ∧ c.writePort v p = c.dropWrite) ∨
    (p ≠ .status ∧ c.busy = false ∧ c.writePort v p = c.writeIdle v p) := by
  by_cases hp : p = .status
  · exact .inl ⟨hp, by simp [CoreState.writePort, hp]⟩
  · cases hb : c.busy with
    | true => exact .inr (.inl ⟨hp, rfl, by simp [CoreState.writePort, hp, hb]⟩)
    | false => exact .inr (.inr ⟨hp, rfl, by simp [CoreState.writePort, hp, hb]⟩)

/-- What a host step that goes on leads to: nothing, a taken or untaken branch, or one transaction with the host
moved to its next line. -/
theorem hostStep_cases {s t : State} (h : hostStep s = .next t) :
    t = s ∨
    (∃ pc, t = { s with host := s.host.goto pc }) ∨
    (∃ op r k name, s.core.transact s.cfg op = some r ∧
      t = { s with core := r.core, host := s.host.gotAccess k name r.data r.resp }) := by
  unfold hostStep at h
  split at h
  · injection h with h; exact .inl h.symm
  · next off v hp =>
    split at h
    · cases h
    · next r hr => injection h with h; exact .inr (.inr ⟨_, r, .write v, 0, hr, h.symm⟩)
  · next off name hp =>
    split at h
    · cases h
    · next r hr => injection h with h; exact .inr (.inr ⟨_, r, .read, name, hr, h.symm⟩)
  · next name mask target hp =>
    split at h
    · injection h with h; exact .inr (.inl ⟨_, h.symm⟩)
    · injection h with h; exact .inr (.inl ⟨_, h.symm⟩)
  · next op name hp =>
    split at h
    · cases h
    · next r hr => injection h with h; exact .inr (.inr ⟨op, r, op.access, name, hr, h.symm⟩)

/-! ## The whole machine -/

/-- Whose turn a step takes: the engine's or the host's, under the level of `rst`, or a change of that level. Turns
already taken are dropped. -/
theorem step_cases (s : State) :
    (∃ s', (s' = s ∨ s' = s.dropTurn) ∧ step s = heldOutcome (engineStep s')) ∨
    (∃ s', (s' = s ∨ s' = s.dropTurn) ∧ step s = heldOutcome (hostStep s')) ∨
    (∃ level, s.turns.head? = some (.rst level) ∧ step s = .next (s.dropTurn.driveRst level)) := by
  obtain ⟨cfg, core, rst, host, turns⟩ := s
  cases turns with
  | nil =>
    cases hb : core.busy with
    | true => exact .inl ⟨_, .inl rfl, by simp [step, hb]⟩
    | false => exact .inr (.inl ⟨_, .inl rfl, by simp [step, hb]⟩)
  | cons u ts =>
    cases u with
    | engine => exact .inl ⟨_, .inr rfl, rfl⟩
    | host => exact .inr (.inl ⟨_, .inr rfl, rfl⟩)
    | rst level => exact .inr (.inr ⟨level, rfl, rfl⟩)

/-- Neither the engine nor the host drives `rst`. -/
theorem engineStep_rst {s t : State} (h : engineStep s = .next t) : t.rst = s.rst := by
  rcases engineStep_cases h with ⟨_, rfl⟩ | ⟨_, _, _, _, rfl⟩ | ⟨_, _, _, _, rfl⟩ <;> rfl
theorem hostStep_rst {s t : State} (h : hostStep s = .next t) : t.rst = s.rst := by
  rcases hostStep_cases h with rfl | ⟨_, rfl⟩ | ⟨_, _, _, _, _, rfl⟩ <;> rfl

/-- While `rst` is released, it changes no outcome of the engine or of the host. -/
theorem heldOutcome_engineStep {s : State} (h : s.rst = false) : heldOutcome (engineStep s) = engineStep s := by
  cases ho : engineStep s with
  | next t => rw [heldOutcome_next, State.held_low ((engineStep_rst ho).trans h)]
  | fault e => rfl
  | refused e => rfl
theorem heldOutcome_hostStep {s : State} (h : s.rst = false) : heldOutcome (hostStep s) = hostStep s := by
  cases ho : hostStep s with
  | next t => rw [heldOutcome_next, State.held_low ((hostStep_rst ho).trans h)]
  | fault e => rfl
  | refused e => rfl

end Sys2Proof.Machine
end

