-- ==== Sys2Proof/Laws/Bus.lean ====
section
/-! SUPPORT. The register map by offset (R22), what a write to a port keeps, and CTRL and STATUS as words. -/

namespace Sys2Proof.Machine

/-! ## The register map -/

theorem portAt_buf {a : Nat} (h : 0x1000 ≤ a) : portAt a = .buf ((a - 0x1000) / 4) := by
  rw [portAt, if_pos h]

theorem portAt_otk {a : Nat} (h : 0x0E0 ≤ a) (h' : a < 0x100) : portAt a = .otk ((a - 0x0E0) / 4) := by
  rw [portAt]
  repeat rw [if_neg (by omega)]
  rw [if_pos h]

theorem portAt_subkey {a : Nat} (h : 0x0C0 ≤ a) (h' : a < 0x0E0) : portAt a = .subkey ((a - 0x0C0) / 4) := by
  rw [portAt]
  repeat rw [if_neg (by omega)]
  rw [if_pos h]

theorem portAt_ss {a : Nat} (h : 0x0A0 ≤ a) (h' : a < 0x0C0) : portAt a = .ss ((a - 0x0A0) / 4) := by
  rw [portAt]
  repeat rw [if_neg (by omega)]
  rw [if_pos h]

theorem portAt_nonce {a : Nat} (h : 0x080 ≤ a) (h' : a < 0x098) : portAt a = .nonce ((a - 0x080) / 4) := by
  rw [portAt]
  repeat rw [if_neg (by omega)]
  rw [if_pos h]

theorem portAt_pk {a : Nat} (h : 0x060 ≤ a) (h' : a < 0x080) : portAt a = .pk ((a - 0x060) / 4) := by
  rw [portAt]
  repeat rw [if_neg (by omega)]
  rw [if_pos h]

theorem portAt_sk {a : Nat} (h : 0x040 ≤ a) (h' : a < 0x060) : portAt a = .sk ((a - 0x040) / 4) := by
  rw [portAt]
  repeat rw [if_neg (by omega)]
  rw [if_pos h]

/-- The reserved rows of R22 and R23, and every offset below 0x040 that no row names. -/
theorem portAt_reserved {a : Nat}
    (h : (a < 0x040 ∧ a ∉ [0x000, 0x008, 0x00C, 0x010, 0x014, 0x018, 0x020, 0x024]) ∨
      (0x098 ≤ a ∧ a < 0x0A0) ∨ (0x100 ≤ a ∧ a < 0x1000)) : portAt a = .reserved := by
  simp only [List.mem_cons, List.not_mem_nil, or_false, not_or] at h
  rw [portAt, if_neg (by omega)]
  by_cases h1 : 0x100 ≤ a
  · rw [if_pos h1]
  rw [if_neg h1]
  repeat rw [if_neg (by omega)]
  by_cases h1 : 0x098 ≤ a
  · rw [if_pos h1]
  rw [if_neg h1]
  repeat rw [if_neg (by omega)]

/-- The rows of the register map that hold one word each (R22). -/
theorem portAt_word : portAt 0x000 = .id ∧ portAt 0x008 = .ctrl ∧ portAt 0x00C = .status ∧ portAt 0x010 = .cmd ∧
    portAt 0x014 = .len ∧ portAt 0x018 = .bufsz ∧ portAt 0x020 = .ksoffLo ∧ portAt 0x024 = .ksoffHi := by
  decide

/-- Every offset stands in a byte array, is one of the eight words, or is reserved. -/
theorem portAt_cases (a : Nat) :
    (0x1000 ≤ a ∧ portAt a = .buf ((a - 0x1000) / 4)) ∨
    (∃ j, portAt a ∈ [.sk j, .pk j, .nonce j, .ss j, .subkey j, .otk j]) ∨
    a ∈ [0x000, 0x008, 0x00C, 0x010, 0x014, 0x018, 0x020, 0x024] ∨ portAt a = .reserved := by
  by_cases h1 : 0x1000 ≤ a
  · exact .inl ⟨h1, portAt_buf h1⟩
  by_cases h2 : a < 0x040
  · by_cases h3 : a ∈ [0x000, 0x008, 0x00C, 0x010, 0x014, 0x018, 0x020, 0x024]
    · exact .inr (.inr (.inl h3))
    · exact .inr (.inr (.inr (portAt_reserved (.inl ⟨h2, h3⟩))))
  by_cases h3 : (0x098 ≤ a ∧ a < 0x0A0) ∨ (0x100 ≤ a ∧ a < 0x1000)
  · exact .inr (.inr (.inr (portAt_reserved (.inr h3))))
  refine .inr (.inl ?_)
  rcases show a < 0x060 ∨ (0x060 ≤ a ∧ a < 0x080) ∨ (0x080 ≤ a ∧ a < 0x098) ∨ (0x0A0 ≤ a ∧ a < 0x0C0) ∨
      (0x0C0 ≤ a ∧ a < 0x0E0) ∨ (0x0E0 ≤ a ∧ a < 0x100) by omega with h | ⟨l, h⟩ | ⟨l, h⟩ | ⟨l, h⟩ | ⟨l, h⟩ | ⟨l, h⟩
  · exact ⟨(a - 0x040) / 4, by rw [portAt_sk (by omega) h]; simp⟩
  · exact ⟨(a - 0x060) / 4, by rw [portAt_pk l h]; simp⟩
  · exact ⟨(a - 0x080) / 4, by rw [portAt_nonce l h]; simp⟩
  · exact ⟨(a - 0x0A0) / 4, by rw [portAt_ss l h]; simp⟩
  · exact ⟨(a - 0x0C0) / 4, by rw [portAt_subkey l h]; simp⟩
  · exact ⟨(a - 0x0E0) / 4, by rw [portAt_otk l h]; simp⟩

theorem portAt_status_iff {a : Nat} : portAt a = .status ↔ a = 0x00C := by
  refine ⟨fun h => ?_, fun h => by rw [h]; decide⟩
  rcases portAt_cases a with ⟨_, p⟩ | ⟨j, p⟩ | p | p
  · rw [p] at h; cases h
  · rw [h] at p; simp at p
  · simp only [List.mem_cons, List.not_mem_nil, or_false] at p
    rcases p with rfl | rfl | rfl | rfl | rfl | rfl | rfl | rfl <;> first | rfl | exact absurd h (by decide)
  · rw [p] at h; cases h

theorem portAt_cmd_iff {a : Nat} : portAt a = .cmd ↔ a = 0x010 := by
  refine ⟨fun h => ?_, fun h => by rw [h]; decide⟩
  rcases portAt_cases a with ⟨_, p⟩ | ⟨j, p⟩ | p | p
  · rw [p] at h; cases h
  · rw [h] at p; simp at p
  · simp only [List.mem_cons, List.not_mem_nil, or_false] at p
    rcases p with rfl | rfl | rfl | rfl | rfl | rfl | rfl | rfl <;> first | rfl | exact absurd h (by decide)
  · rw [p] at h; cases h

theorem portAt_ctrl_iff {a : Nat} : portAt a = .ctrl ↔ a = 0x008 := by
  refine ⟨fun h => ?_, fun h => by rw [h]; decide⟩
  rcases portAt_cases a with ⟨_, p⟩ | ⟨j, p⟩ | p | p
  · rw [p] at h; cases h
  · rw [h] at p; simp at p
  · simp only [List.mem_cons, List.not_mem_nil, or_false] at p
    rcases p with rfl | rfl | rfl | rfl | rfl | rfl | rfl | rfl <;> first | rfl | exact absurd h (by decide)
  · rw [p] at h; cases h

theorem portAt_len_iff {a : Nat} : portAt a = .len ↔ a = 0x014 := by
  refine ⟨fun h => ?_, fun h => by rw [h]; decide⟩
  rcases portAt_cases a with ⟨_, p⟩ | ⟨j, p⟩ | p | p
  · rw [p] at h; cases h
  · rw [h] at p; simp at p
  · simp only [List.mem_cons, List.not_mem_nil, or_false] at p
    rcases p with rfl | rfl | rfl | rfl | rfl | rfl | rfl | rfl <;> first | rfl | exact absurd h (by decide)
  · rw [p] at h; cases h

/-- A port of BUF stands at or above 0x1000. -/
theorem portAt_buf_inv {a j : Nat} (h : portAt a = .buf j) : 0x1000 ≤ a ∧ j = (a - 0x1000) / 4 := by
  rcases portAt_cases a with ⟨l, p⟩ | ⟨k, p⟩ | p | p
  · rw [p] at h; exact ⟨l, (Port.buf.inj h).symm⟩
  · rw [h] at p; simp at p
  · simp only [List.mem_cons, List.not_mem_nil, or_false] at p
    rcases p with rfl | rfl | rfl | rfl | rfl | rfl | rfl | rfl <;> simp [portAt] at h
  · rw [p] at h; cases h

/-- A word of BUF inside the window lies inside BUF. -/
theorem portAt_buf_inside {cfg : Params} {a j : Nat} (h : portAt a = .buf j) (h4 : a % 4 = 0)
    (hw : a < cfg.windowBytes) : 4 * j + 4 ≤ cfg.bufBytes := by
  obtain ⟨hb, rfl⟩ := portAt_buf_inv h
  simp only [Params.windowBytes, Params.bufBytes] at hw ⊢
  omega

/-! ## What a write to a port keeps -/

/-- A write to any port but CMD leaves the pending command. -/
theorem writeIdle_pending {c : CoreState} {v : Word} {p : Port} (h : p ≠ .cmd) :
    (c.writeIdle v p).pending = c.pending := by
  cases p <;> first | exact absurd rfl h | simp [CoreState.writeIdle, CoreState.writeStatus]

/-- A write to any port but CMD leaves ERR. -/
theorem writeIdle_err {c : CoreState} {v : Word} {p : Port} (h : p ≠ .cmd) : (c.writeIdle v p).err = c.err := by
  cases p <;> first | exact absurd rfl h | simp [CoreState.writeIdle, CoreState.writeStatus]

/-- No write changes the cursor (R30, R44). -/
theorem writeIdle_cursor (c : CoreState) (v : Word) (p : Port) :
    (c.writeIdle v p).data.cursor = c.data.cursor := by
  cases p <;> simp [CoreState.writeIdle, CoreState.writeStatus, CoreState.accept]

/-- A write changes BUF only at a word of BUF. -/
theorem writeIdle_buf (c : CoreState) (v : Word) (p : Port) :
    (c.writeIdle v p).data.buf =
      match p with
      | .buf j => c.data.buf.writeWord j v
      | _ => c.data.buf := by
  cases p <;> simp [CoreState.writeIdle, CoreState.writeStatus, CoreState.accept]

/-- The word that a word write put at index j is what a read of index j returns (R61). -/
theorem w32_bytesSetWord {n : Nat} (b : Bytes n) (j : Nat) (v : Word) (h : 4 * j + 4 ≤ n) :
    w32 (bytesSetWord b j v).toList j = v := by
  have hl : ((bytesSetWord b j v).toList.drop (4 * j)).take 4 = (leBytes 4 v.toNat).toList := by
    apply List.ext_getElem
    · simp; omega
    · intro i h1 h2
      have hi : i < 4 := by simpa using h2
      have e1 : (4 * j + i) / 4 = j := by omega
      have e2 : (4 * j + i) % 4 = i := by omega
      apply BitVec.eq_of_toNat_eq
      simp [e1, e2, BitVec.extractLsb'_toNat, Nat.shiftRight_eq_div_pow]
  have h4 : le (leBytes 4 v.toNat).toList = v.toNat := le_leBytes_of_lt (by simpa using v.isLt)
  rw [w32, hl, h4, BitVec.ofNat_toNat, BitVec.setWidth_eq]

/-- The word that a word write put into BUF is what a read of it returns (R61). -/
theorem Memory.readWord_writeWord (m : Memory) (j : Nat) (v : Word) : (m.writeWord j v).readWord j = v := by
  have hs := Memory.slice_writeSlice m (4 * j) (leBytes 4 v.toNat).toList
  rw [show (leBytes 4 v.toNat).toList.length = 4 by simp] at hs
  rw [Memory.readWord, Memory.writeWord, hs, w32_leBytes]

/-! ## CTRL and STATUS as words -/

/-- STATUS bit 0 is BUSY (R26). -/
theorem statusWord_busy (c : CoreState) : c.statusWord &&& 0x1 = if c.busy then 1 else 0 := by
  unfold CoreState.statusWord
  generalize c.err.code = e, c.data.cursor.cur = a, c.werr = w, c.done = d, c.busy = b
  revert e a w d b
  decide

/-- The integer of CTRL's word. -/
theorem Ctrl.toWord_toNat (c : Ctrl) : c.toWord.toNat = c.ie.toNat + 2 * c.lochk.toNat + 4 * c.nacl.toNat := by
  obtain ⟨a, b, d⟩ := c
  revert a b d
  decide

/-- CTRL keeps the three named bits of the word written to it and reads the others as 0 (R25). -/
theorem Ctrl.toWord_ofWord (v : Word) : (Ctrl.ofWord v).toWord = v &&& 7 := by
  apply BitVec.eq_of_toNat_eq
  have hm : v.toNat &&& (7 : Word).toNat = v.toNat % 2 ^ 3 := Nat.and_two_pow_sub_one_eq_mod v.toNat 3
  rw [Ctrl.toWord_toNat, BitVec.toNat_and, hm]
  simp only [Ctrl.ofWord, BitVec.getLsbD, Nat.testBit, Nat.shiftRight_eq_div_pow, Nat.one_and_eq_mod_two]
  rcases Nat.mod_two_eq_zero_or_one v.toNat with h0 | h0 <;>
    rcases Nat.mod_two_eq_zero_or_one (v.toNat / 2) with h1 | h1 <;>
    rcases Nat.mod_two_eq_zero_or_one (v.toNat / 4) with h2 | h2 <;> simp [h0, h1, h2] <;> omega

end Sys2Proof.Machine
end

