-- ==== Sys2Proof/Laws/Observe.lean ====
section
/-! SUPPORT. The words of the register map in the terms the claims are stated in: what a word shows of a byte string, of
CTRL and of STATUS, what a word write stores, and that no access and no command draws BUF afresh. -/

namespace Sys2Proof.Machine

/-- Byte k of the word at four bytes of a list. -/
theorem w32_byte (l : List Byte) (j k : Nat) (hk : k < 4) (h : 4 * j + 4 ≤ l.length) :
    (w32 l j).extractLsb' (8 * k) 8 = l[4 * j + k]'(by omega) := by
  have hl : ((l.drop (4 * j)).take 4).length = 4 := by simp; omega
  have hb := le_byte ((l.drop (4 * j)).take 4) k (by omega)
  have hlt : le ((l.drop (4 * j)).take 4) < 2 ^ 32 := by
    have := le_lt ((l.drop (4 * j)).take 4)
    rwa [hl] at this
  apply BitVec.eq_of_toNat_eq
  rw [w32, BitVec.extractLsb'_toNat, BitVec.toNat_ofNat, Nat.mod_eq_of_lt hlt, Nat.shiftRight_eq_div_pow]
  simpa using hb

/-- A word read of a byte array shows its bytes (R61). -/
theorem wordShows_w32 {n : Nat} (b : Bytes n) (j : Nat) (h : 4 * j + 4 ≤ n) :
    wordShows (w32 b.toList j) b (4 * j) := by
  intro k hk
  rw [w32_byte b.toList j k hk (by simpa using h), Vector.getElem?_eq_getElem (by omega)]
  simp

/-- A word read of BUF shows its bytes (R61). -/
theorem Memory.readWord_byte (m : Memory) (j k : Nat) (hk : k < 4) :
    (m.readWord j).extractLsb' (8 * k) 8 = m.read (4 * j + k) := by
  rw [Memory.readWord, w32_byte _ 0 k hk (by simp)]
  simp

/-- A word write of a byte array stores the word and keeps every other byte (R61). -/
theorem wordStored_bytesSetWord {n : Nat} (b : Bytes n) (j : Nat) (v : Word) (h : 4 * j + 4 ≤ n) :
    wordStored b (bytesSetWord b j v) (4 * j) v := by
  constructor
  · intro k hk
    rw [Vector.getElem?_eq_getElem (by omega), bytesSetWord_getElem, if_pos (by omega),
      show (4 * j + k) % 4 = k by omega]
  · intro i hi
    by_cases hn : i < n
    · rw [Vector.getElem?_eq_getElem hn, Vector.getElem?_eq_getElem hn, bytesSetWord_getElem, if_neg (by omega)]
    · rw [Vector.getElem?_eq_none (by omega), Vector.getElem?_eq_none (by omega)]

/-- A word write of BUF stores the word (R61). -/
theorem Memory.read_writeWord_in (m : Memory) (j k : Nat) (v : Word) (hk : k < 4) :
    (m.writeWord j v).read (4 * j + k) = v.extractLsb' (8 * k) 8 := by
  rw [Memory.writeWord, Memory.read_writeSlice_in m (4 * j) _ k (by simpa using hk)]
  apply BitVec.eq_of_toNat_eq
  simp [BitVec.extractLsb'_toNat, Nat.shiftRight_eq_div_pow]

/-- A word write of BUF keeps every other byte (R61). -/
theorem Memory.read_writeWord_out (m : Memory) (v : Word) {i j : Nat} (h : i < 4 * j ∨ 4 * j + 4 ≤ i) :
    (m.writeWord j v).read i = m.read i :=
  Memory.read_writeSlice_out m (4 * j) _ (by simpa using h)

@[simp] theorem Memory.writeWord_draw (m : Memory) (j : Nat) (v : Word) : (m.writeWord j v).draw = m.draw :=
  Memory.writeSlice_draw m _ _

/-- CTRL's word shows CTRL (R25). -/
theorem Ctrl.shows_toWord (c : Ctrl) : c.shows c.toWord := by
  obtain ⟨a, b, d⟩ := c
  revert a b d
  exact fun a b d => by cases a <;> cases b <;> cases d <;> exact ⟨rfl, rfl, rfl, rfl⟩

/-- STATUS's word shows the flags (R26, R210). -/
theorem statusShows_statusWord (c : CoreState) : c.statusShows c.statusWord := by
  have h : ∀ (e : BitVec 4) (a w d b : Bool),
      let v := (0 : BitVec 24) ++ e ++ BitVec.ofBool a ++ BitVec.ofBool w ++ BitVec.ofBool d ++ BitVec.ofBool b
      v.getLsbD 0 = b ∧ v.getLsbD 1 = d ∧ v.getLsbD 2 = w ∧ v.getLsbD 3 = a ∧ v.extractLsb' 4 4 = e ∧
        v.extractLsb' 8 24 = 0 := by decide
  obtain ⟨h0, h1, h2, h3, he, hr⟩ := h c.err.code c.data.cursor.cur c.werr c.done c.busy
  exact ⟨h0, h1, h2, h3, fun e => he.trans (by rw [e]; rfl), fun e => he.trans (by rw [e]; rfl),
    fun e => he.trans (by rw [e]; rfl), fun e => he.trans (by rw [e]; rfl), fun e => he.trans (by rw [e]; rfl),
    fun e => he.trans (by rw [e]; rfl), fun e => he.trans (by rw [e]; rfl), hr⟩

/-! ## The reset state -/

/-- The reset state of R50, whatever drew BUF. -/
theorem CoreState.isReset_reset (n : Nat) : (CoreState.reset n).isReset := rfl

theorem CoreState.isReset_rst (c : CoreState) : c.rst.isReset := rfl

/-- No pseudocode draws BUF afresh. -/
theorem commandBody_draw {cfg : Params} {i : Instr} {snap live d : Operands}
    (h : commandBody cfg i snap live = .ok d) : d.buf.draw = live.buf.draw := by
  cases i with
  | nop => rw [nopBody_ok h]
  | agree => rw [(agreeBody_ok h).2]
  | hkey => rw [hkeyBody_ok h]
  | hsalsa => rw [hsalsaBody_ok h]
  | ksInit => rw [ksInitBody_ok h]
  | ksOtk => rw [(ksOtkBody_ok h).2.2]
  | ksXor => rw [(ksXorBody_ok h).2.2.2]; exact Memory.writeSlice_draw _ _ _
  | poly => rw [(polyBody_ok h).2, Operands.withTag_buf, Memory.writeSlice_draw]
  | sealBox =>
    obtain ⟨_, _, z, ct, _, _, rfl⟩ := sealBody_ok h
    rw [Operands.withMessage_buf, Memory.writeSlice_draw, Operands.withTag_buf, Memory.writeSlice_draw]
  | openBox =>
    obtain ⟨_, _, z, _, _, rfl⟩ := openBody_ok h
    rw [Operands.withMessage_buf, Memory.writeSlice_draw]
  | clear => rw [clearBody_ok h]

/-- The engine's step draws nothing. -/
theorem engineStep_draw {s t : State} (h : engineStep s = .next t) :
    t.core.data.buf.draw = s.core.data.buf.draw := by
  rcases engineStep_cases h with ⟨_, rfl⟩ | ⟨_, i, _, _, rfl⟩ | ⟨_, _, _, _, rfl⟩
  · rfl
  · rcases finish_cases s (commandBody s.cfg i s.core.snapshot s.core.data) with ⟨d, hr, e⟩ | ⟨x, _, e⟩
    · rw [e, State.completedWith_core, CoreState.succeed_data, commandBody_draw hr]
    · rw [e, State.failedWith_core, CoreState.fail_data]
  · rfl

/-- A transaction draws nothing. -/
theorem transact_draw {c : CoreState} {cfg : Params} {op : BusOp} {r : BusResult} (h : c.transact cfg op = some r) :
    r.core.data.buf.draw = c.data.buf.draw := by
  obtain ⟨a, _, ⟨_, rfl⟩ | ⟨_, _, rfl⟩ | ⟨v, _, _, rfl⟩⟩ := transact_cases h
  · rfl
  · rfl
  · rcases writePort_cases c v (portAt a) with ⟨_, e⟩ | ⟨_, _, e⟩ | ⟨_, _, e⟩ <;> simp only [e]
    · rw [CoreState.writeStatus_data]
    · rw [CoreState.dropWrite_data]
    · rw [writeIdle_buf]
      split
      · exact Memory.writeWord_draw _ _ _
      · rfl

/-- A host step draws nothing. -/
theorem hostStep_draw {s t : State} (h : hostStep s = .next t) :
    t.core.data.buf.draw = s.core.data.buf.draw := by
  rcases hostStep_cases h with rfl | ⟨_, rfl⟩ | ⟨_, r, _, _, hr, rfl⟩
  · rfl
  · rfl
  · exact transact_draw hr

end Sys2Proof.Machine
end

