-- ==== Sys2Proof/Laws/PerInstr.lean ====
section
/-! SUPPORT. What holds of every command as syntax, one lemma per constructor. -/

namespace Sys2Proof.Laws.EncodingWellFormed

/-- The command is well formed, its word is a well-formed command word, the word's MBZ field is zero (R85), and its OP
field is the command's row of the opcode map (R88). -/
abbrev Statement (i : Instr) : Prop :=
  i.wf = true ∧ commandWordWf (encode i) = true ∧ fieldMbz (encode i) = 0 ∧ fieldOp (encode i) = encodeOp i

theorem nop : Statement .nop := by decide
theorem agree : Statement .agree := by decide
theorem hkey : Statement .hkey := by decide
theorem hsalsa : Statement .hsalsa := by decide
theorem ksInit : Statement .ksInit := by decide
theorem ksOtk : Statement .ksOtk := by decide
theorem ksXor : Statement .ksXor := by decide
theorem poly : Statement .poly := by decide
theorem sealBox : Statement .sealBox := by decide
theorem openBox : Statement .openBox := by decide
theorem clear : Statement .clear := by decide

end Sys2Proof.Laws.EncodingWellFormed
end

