-- ==== Sys2Proof/Laws/Run.lean ====
section
/-! SUPPORT. What running one command, and a list of them, leads to, so that later proofs need not unfold accept,
decode and completion. -/

namespace Sys2Proof.Machine

/-- Completing twice leaves what the second completion leaves. -/
@[simp] theorem State.completedWith_completedWith (s : State) (d e : Operands) :
    (s.completedWith d).completedWith e = s.completedWith e := rfl

/-- Completing an accepted command leaves what completing without the accept does. -/
@[simp] theorem State.completedWith_accepted (s : State) (w : Word) (d : Operands) :
    (s.accepted w).completedWith d = s.completedWith d := rfl
@[simp] theorem State.failedWith_accepted (s : State) (w : Word) (e : ErrCode) :
    (s.accepted w).failedWith e = s.failedWith e := rfl

/-- The operands after a completion. -/
@[simp] theorem State.completedWith_data (s : State) (d : Operands) : (s.completedWith d).core.data = d := rfl
@[simp] theorem State.failedWith_data (s : State) (e : ErrCode) : (s.failedWith e).core.data = s.core.data := rfl
@[simp] theorem State.completedWith_err (s : State) (d : Operands) : (s.completedWith d).core.err = .ok := rfl
@[simp] theorem State.failedWith_err (s : State) (e : ErrCode) : (s.failedWith e).core.err = e := rfl

/-- The error a command's pseudocode raises is never OK. -/
theorem commandBody_error {cfg : Params} {i : Instr} {snap live : Operands} {e : ErrCode}
    (h : commandBody cfg i snap live = .error e) : e ≠ .ok := by
  cases i <;> simp only [commandBody] at h
  · cases h
  · unfold agreeBody at h
    split at h
    · cases h
    · next he => rw [(shareSecret_error he).1] at h; cases h; simp
  · cases h
  · cases h
  · cases h
  · unfold ksOtkBody at h
    repeat' split at h
    all_goals cases h <;> simp
  · unfold ksXorBody at h
    repeat' split at h
    all_goals cases h <;> simp
  · unfold polyBody at h
    split at h <;> cases h
    simp
  · unfold sealBody at h
    split at h
    · cases h; simp
    · split at h
      · next he => rw [(shareSecret_error he).1] at h; cases h; simp
      · cases h
  · unfold openBody at h
    split at h
    · cases h; simp
    · split at h
      · next he => rw [(shareSecret_error he).1] at h; cases h; simp
      · simp only at h
        split at h
        · cases h
        · cases h; simp
  · cases h

/-- RUN of one command completes with the outcome of its pseudocode over the operands as they stand (R103). -/
theorem runCommand_eq (i : Instr) (s : State) :
    s.runCommand i = .next ((s.accepted (encode i)).finish (commandBody s.cfg i s.core.data s.core.data)) := by
  have hd : decodeWord (encode i) = .command i := by cases i <;> decide
  unfold State.runCommand
  rw [engineStep_decoded (s := s.accepted (encode i)) rfl hd, exec_eq_finish, State.accepted_core,
    CoreState.accept_snapshot, CoreState.accept_data, State.accepted_cfg]

/-- RUN of a command whose pseudocode answers. -/
theorem runCommand_ok {i : Instr} {s : State} {d : Operands}
    (h : commandBody s.cfg i s.core.data s.core.data = .ok d) : s.runCommand i = .next (s.completedWith d) := by
  rw [runCommand_eq, h, State.finish_ok, State.completedWith_accepted]

/-- RUN of a command whose pseudocode raises an error. -/
theorem runCommand_error {i : Instr} {s : State} {e : ErrCode}
    (h : commandBody s.cfg i s.core.data s.core.data = .error e) : s.runCommand i = .next (s.failedWith e) := by
  rw [runCommand_eq, h, State.finish_error, State.failedWith_accepted]

/-- RUN of a command that completes with ERR = 0. -/
theorem runCommand_inv {i : Instr} {s t : State} (h : s.runCommand i = .next t) (he : t.core.err = .ok) :
    ∃ d, commandBody s.cfg i s.core.data s.core.data = .ok d ∧ t = s.completedWith d := by
  cases hr : commandBody s.cfg i s.core.data s.core.data with
  | ok d => exact ⟨d, rfl, Host.Outcome.next.inj (h.symm.trans (runCommand_ok hr))⟩
  | error e =>
    obtain rfl := Host.Outcome.next.inj (h.symm.trans (runCommand_error hr))
    exact absurd he (commandBody_error hr)

@[simp] theorem runAll_nil (s : State) : State.runAll [] s = some s := rfl

/-- The first command of a list that runs to its end. -/
theorem runAll_cons {i : Instr} {is : List Instr} {s t : State} (h : State.runAll (i :: is) s = some t) :
    ∃ d, commandBody s.cfg i s.core.data s.core.data = .ok d ∧ State.runAll is (s.completedWith d) = some t := by
  rw [State.runAll] at h
  split at h
  · next u hu =>
    split at h
    · next he =>
      obtain ⟨d, hd, rfl⟩ := runCommand_inv hu he
      exact ⟨d, hd, h⟩
    · cases h
  · cases h
  · cases h

end Sys2Proof.Machine
end

