-- ==== Sys2Proof/Tests/Slice0.lean ====
section
/-! SUPPORT. Tests of the model on fixed values, each expected value taken from spec/ (the vector or rule is named), and
a witness for every obligation that has hypotheses. -/

namespace Sys2Proof.Tests

open Sys2Proof Sys2Proof.Machine

/-! ## Helpers -/

/-- A byte string written in memory order, byte 0 first, as spec/95_test_vectors.md writes it. -/
def mem (n v : Nat) : Bytes n := Vector.ofFn fun i => BitVec.ofNat 8 (v / 256 ^ (n - 1 - i.val))

/-- The machine after reset with the given operands. -/
def withOps (d : Operands) : State := { State.reset with core := { State.reset.core with data := d } }

/-- The state an outcome goes on to. -/
def nextOf : Host.Outcome State Fault Refusal → State
  | .next s => s
  | .fault _ => State.reset
  | .refused _ => State.reset

/-- The CORE after one command runs on the given operands. -/
def run (i : Instr) (d : Operands) : CoreState := (nextOf ((withOps d).runCommand i)).core

def ops0 : Operands := Operands.reset 0

def aliceSk : Bytes 32 := mem 32 0x77076d0a7318a57d3c16c17251b26645df4c2f87ebc0992ab177fba51db92c2a
def alicePk : Bytes 32 := mem 32 0x8520f0098930a754748b7ddcb43ef75a0dbf3a0d26381af4eba4a98eaa9b4e6a
def bobSk : Bytes 32 := mem 32 0x5dab087e624a8a4b79e17f8b83800ee66f3bb1292618b6fd1c2f8b27ff88e0eb
def bobPk : Bytes 32 := mem 32 0xde9edb7d7b7dc1b4d35b61c2ece435373f8343c85b78674dadfc7e146f882b4f
def boxNonce : Bytes 24 := mem 24 0x69696ee955b62b73cd62bda875fc73d68219e0036b7a0b37

/-- Alice's operands towards Bob, and Bob's towards Alice, with LEN = 0. -/
def aliceOps : Operands := { ops0 with sk := aliceSk, pk := bobPk, nonce := boxNonce }
def bobOps : Operands := { ops0 with sk := bobSk, pk := alicePk, nonce := boxNonce }

/-- The operands with the cursor at the given offset and LEN. -/
def cursorOps (off : BitVec 64) (len : Word) : Operands :=
  { ops0 with len := len, cursor := { cur := true, key := zeroBytes 32, nonce := zeroBytes 8, off := off } }

/-! ## WellFormed refuses -/

/-- MBZ: bit 8 and bit 31 set (R90). -/
theorem test_mbz_refused : mbzZero 0x00000108 = false ∧ mbzZero 0x80000000 = false := by decide

/-- OP: the ends of both reserved ranges (R89). -/
theorem test_reserved_op_refused :
    opMapped 0x0A = false ∧ opMapped 0x0E = false ∧ opMapped 0x10 = false ∧ opMapped 0xFF = false := by decide

theorem test_word_refused : commandWordWf 0x0000000A = false ∧ commandWordWf 0x00000108 = false := by decide

/-- A BNZ to a line past the program's end, and one that tests a name no primitive reads (R98). -/
theorem test_bnz_refused :
    hostProgramWf [.rd 0x00C 0, .bnz 0 1 3] = false ∧ hostProgramWf [.rd 0x00C 0, .bnz 1 1 0] = false ∧
    hostProgramWf [.rd 0x00C 0, .bnz 0 1 0] = true := by decide

/-- SETB and GETB of a length that is not a multiple of 4, and a BNZ to a label that is not there (R100, R102). -/
theorem test_asm_refused :
    asmWf [.setb (.reg .sk 0) [1, 2, 3]] = false ∧ asmWf [.getb (.reg .buf 0) 5 0] = false ∧
    asmWf [.rd (.reg .status 0) 0, .bnz 0 1 7] = false := by decide

/-! ## Decoding: each constructor's word, written out from R88 -/

theorem test_decode_nop : decodeWord 0b00000000000000000000000000000000 = .command .nop := by decide
theorem test_decode_agree : decodeWord 0b00000000000000000000000000000001 = .command .agree := by decide
theorem test_decode_hkey : decodeWord 0b00000000000000000000000000000010 = .command .hkey := by decide
theorem test_decode_hsalsa : decodeWord 0b00000000000000000000000000000011 = .command .hsalsa := by decide
theorem test_decode_ksInit : decodeWord 0b00000000000000000000000000000100 = .command .ksInit := by decide
theorem test_decode_ksOtk : decodeWord 0b00000000000000000000000000000101 = .command .ksOtk := by decide
theorem test_decode_ksXor : decodeWord 0b00000000000000000000000000000110 = .command .ksXor := by decide
theorem test_decode_poly : decodeWord 0b00000000000000000000000000000111 = .command .poly := by decide
theorem test_decode_sealBox : decodeWord 0b00000000000000000000000000001000 = .command .sealBox := by decide
theorem test_decode_openBox : decodeWord 0b00000000000000000000000000001001 = .command .openBox := by decide
theorem test_decode_clear : decodeWord 0b00000000000000000000000000001111 = .command .clear := by decide

/-- CTL-3's words are illegal, each for its own reason (R89, R90). -/
theorem test_decode_illegal :
    decodeWord 0x0000000A = .illegal .reservedOp ∧ decodeWord 0x000000FF = .illegal .reservedOp ∧
    decodeWord 0x00000108 = .illegal .mbzNotZero ∧ decodeWord 0x80000000 = .illegal .mbzNotZero := by decide

/-! ## Assembling (R100-R104) -/

/-- The first lines of program P3's box: `SETB NONCE, 69696ee955b62b73cd62bda875fc73d68219e0036b7a0b37` (P1, indices 17 to
22). -/
theorem test_setb_nonce :
    assemble [.setb (.reg .nonce 0) boxNonce.toList] = some
      [.wr 0x080 0xe96e6969, .wr 0x084 0x732bb655, .wr 0x088 0xa8bd62cd, .wr 0x08c 0xd673fc75,
       .wr 0x090 0x03e01982, .wr 0x094 0x370b7a6b] := by decide

/-- `WR LEN, 1009` and `RUN KS_XOR` (P4, indices 4 to 7, here from line 0). -/
theorem test_run : assemble [.wr (.reg .len 0) 1009, .run .ksXor 0] =
    some [.wr 0x014 0x000003f1, .wr 0x010 0x00000006, .rd 0x00c 0, .bnz 0 0x1 2] := by decide

/-! ## The algorithms -/

/-- KA-10. -/
theorem test_clamp : clamp25519 (zeroBytes 32) = mem 32 0x40 ∧
    clamp25519 (Vector.replicate 32 0xFF) =
      mem 32 0xf8ffffffffffffffffffffffffffffffffffffffffffffffffffffffffffff7f := by decide +kernel

/-- KA-2: bit 255 of the point is set. -/
theorem test_x25519_masks_the_point :
    x25519 (mem 32 0x4b66e9d4d1b4673c5ad22691957d6af5c11b6421e0ea01d42ca4169e7918ba0d)
      (mem 32 0xe5210f12786811d3f4b7959d0538ae2c31dbe7106fc03c3efc4cd549c715a493) =
      mem 32 0x95cbde9476e8907d7aade45cb4b873f88b595a68799fa152e6f8f7647aac7957 := by decide +kernel

/-- ARX-1e. -/
theorem test_quarterRound :
    quarterRound #v[0xe7e8c006, 0, 0, 0, 0xc4f9417d, 0, 0, 0, 0x6479b4b2, 0, 0, 0, 0x68c67137, 0, 0, 0] 0 4 8 12 =
      #v[0xe876d72b, 0, 0, 0, 0x9361dfd5, 0, 0, 0, 0xf1460244, 0, 0, 0, 0x948541a3, 0, 0, 0] := by decide +kernel

/-- ARX-2. -/
theorem test_doubleRound :
    doubleRound #v[1, 0, 0, 0, 0, 0, 0, 0, 0, 0, 0, 0, 0, 0, 0, 0] =
      #v[0x8186a22d, 0x0040a284, 0x82479210, 0x06929051, 0x08000090, 0x02402200, 0x00004000, 0x00800000,
         0x00010200, 0x20400000, 0x08008104, 0x00000000, 0x20500000, 0xa0000040, 0x0008180a, 0x612a8020] := by
  decide +kernel

/-- KS-2b: the counter's low word at position 8, its high word at 9. -/
theorem test_blockInit :
    blockInit (mem 32 0x0102030405060708090a0b0c0d0e0f101112131415161718191a1b1c1d1e1f20)
      (mem 8 0x65666768696a6b6c) 0x0807060504030201 =
      #v[0x61707865, 0x04030201, 0x08070605, 0x0c0b0a09, 0x100f0e0d, 0x3320646e, 0x68676665, 0x6c6b6a69,
         0x04030201, 0x08070605, 0x79622d32, 0x14131211, 0x18171615, 0x1c1b1a19, 0x201f1e1d, 0x6b206574] := by
  decide +kernel

/-- KS-5: a range that straddles two blocks. -/
theorem test_keystream_straddles :
    keystream (mem 32 0x0102030405060708090a0b0c0d0e0f101112131415161718191a1b1c1d1e1f20)
      (mem 8 0x65666768696a6b6c) 60 8 = (mem 8 0x88d4c144f3c7f123).toList := by decide +kernel

/-- MAC-7a: a sum that reaches the prime, with r = 1. -/
theorem test_poly1305_reduces :
    poly1305 (mem 32 0x0100000000000000000000000000000000000000000000000000000000000000)
      (mem 48 0xfffffffffffffffffffffffffffffffff0ffffffffffffffffffffffffffffff11000000000000000000000000000000).toList
      = mem 16 0x05000000000000000000000000000000 := by decide +kernel

/-! ## One test or two for each command -/

/-- CTL-2: NOP leaves STATUS = 0x2. -/
theorem test_nop : (run .nop ops0).statusWord = 0x00000002 := by decide

/-- KA-3. -/
theorem test_agree : (run .agree aliceOps).data.ss =
    mem 32 0x4a5d9d5ba4ce2de1728e3bf480350f25e07e21c947d19e3376f09b3c1e161742 := by decide +kernel

/-- KA-6 for u = 1 with LOCHK = 1: STATUS = 0x22 and SS unchanged. -/
theorem test_agree_low_order :
    let c := run .agree { aliceOps with pk := mem 32 (256 ^ 31), ctrl := { ie := false, lochk := true, nacl := true } }
    c.statusWord = 0x00000022 ∧ c.data.ss = zeroBytes 32 := by decide +kernel

/-- ARX-3: HKEY on the shared secret of KA-3. -/
theorem test_hkey : (run .hkey
      { ops0 with ss := mem 32 0x4a5d9d5ba4ce2de1728e3bf480350f25e07e21c947d19e3376f09b3c1e161742 }).data.ss =
    mem 32 0x1b27556473e985d462cd51197a9a46c76009549eac6474f206c4ee0844f68389 := by decide +kernel

/-- ARX-5. -/
theorem test_hsalsa : (run .hsalsa
      { ops0 with
        ss := mem 32 0x1b27556473e985d462cd51197a9a46c76009549eac6474f206c4ee0844f68389
        nonce := boxNonce }).data.subkey =
    mem 32 0xdc908dda0b9344a953629b733820778880f3ceb421bb61b91cbd4c3e66256ce4 := by decide +kernel

/-- P4: KS_INIT takes SUBKEY and NONCE[16:24], and STATUS becomes 0xA. -/
theorem test_ksInit :
    let c := run .ksInit { ops0 with subkey := aliceSk, nonce := boxNonce }
    c.data.cursor = { cur := true, key := aliceSk, nonce := mem 8 0x8219e0036b7a0b37, off := 0 } ∧
      c.statusWord = 0x0000000A := by decide +kernel

/-- KS-8: at offset 2^64 - 33 KS_OTK runs, one further it reports KS_EXHAUSTED. -/
theorem test_ksOtk_exhausted :
    (run .ksOtk (cursorOps 0xFFFFFFFFFFFFFFDF 0)).data.cursor.off = 0xFFFFFFFFFFFFFFFF ∧
    (run .ksOtk (cursorOps 0xFFFFFFFFFFFFFFE0 0)).statusWord = 0x0000006A := by decide +kernel

/-- P4: KS_OTK gives block 0 [0:32] of KS-3. -/
theorem test_ksOtk : (run .ksOtk
      { ops0 with cursor := { cur := true
                              key := mem 32 0x0102030405060708090a0b0c0d0e0f101112131415161718191a1b1c1d1e1f20
                              nonce := mem 8 0x65666768696a6b6c
                              off := 0 } }).data.otk =
    mem 32 0x29b69281abaf563128b971b160d9c5f47fa4f08cb978b6c70c5aee6c8b578201 := by decide +kernel

/-- P4: KS_XOR of four zero bytes at offset 32 gives block 0 [32:36], and KS_OFF is 36. -/
theorem test_ksXor :
    let c := run .ksXor
      { ops0 with
        len := 4
        buf := ops0.buf.writeSlice 16 [0, 0, 0, 0]
        cursor := { cur := true
                    key := mem 32 0x0102030405060708090a0b0c0d0e0f101112131415161718191a1b1c1d1e1f20
                    nonce := mem 8 0x65666768696a6b6c
                    off := 32 } }
    c.data.buf.slice 16 4 = (mem 4 0xe3ff9093).toList ∧ c.data.cursor.off = 36 := by decide +kernel

/-- CTL-5 and KS-9: the order of KS_XOR's errors. -/
theorem test_ksXor_errors :
    (run .ksXor { ops0 with len := 1024 }).statusWord = 0x00000012 ∧ (run .ksXor ops0).statusWord = 0x00000052 := by
  decide

/-- MAC-8: a partial last block, through BUF. -/
theorem test_poly : (run .poly
      { ops0 with
        len := 17
        otk := mem 32 0x85d6be7857556d337f4452fe42d506a80103808afb0db2fd4abff6af4149f51b
        buf := ops0.buf.writeSlice 16 (mem 17 0x43727970746f6772617068696320466f72).toList }).data.buf.slice 0 16 =
    (mem 16 0xcf08de7399e44923fc2b568debef0eec).toList := by decide +kernel

/-- BOX-3: SEAL of the 43 bytes of DOC-1. -/
theorem test_sealBox : (run .sealBox
      { aliceOps with
        len := 43
        buf := ops0.buf.writeSlice 16 (mem 43
          0x54686520717569636b2062726f776e20666f78206a756d7073206f76657220746865206c617a7920646f67).toList
      }).data.buf.slice 0 59 =
    (mem 59 0x4a28949b164b8560c971917f03c352b764f6017a059c89c566a221deb66014957c7493ad305a30007f29532830f777e24d565bbfca1be441330fbf).toList := by
  decide +kernel

/-- BOX-9: LEN = 1009 is too long in a buffer of 1024 bytes. -/
theorem test_sealBox_too_long : (run .sealBox { aliceOps with len := 1009 }).statusWord = 0x00000012 := by decide

/-- P3: OPEN of that box by Bob gives DOC-1 back and leaves the tag. -/
theorem test_openBox : (run .openBox
      { bobOps with
        len := 43
        buf := ops0.buf.writeSlice 0 (mem 59
          0x4a28949b164b8560c971917f03c352b764f6017a059c89c566a221deb66014957c7493ad305a30007f29532830f777e24d565bbfca1be441330fbf).toList
      }).data.buf.slice 0 59 =
    (mem 59 0x4a28949b164b8560c971917f03c352b754686520717569636b2062726f776e20666f78206a756d7073206f76657220746865206c617a7920646f67).toList := by
  decide +kernel

/-- CTL-4: CLEAR zeroes the key material and the cursor, and keeps LEN. -/
theorem test_clear :
    let c := run .clear { cursorOps 75 43 with ss := aliceSk, sk := bobSk }
    c.data = { ops0 with len := 43 } ∧ c.statusWord = 0x00000002 := by decide

/-- CTL-3: an illegal word leaves STATUS = 0x42. -/
theorem test_illegal : (nextOf (engineStep (State.reset.accepted 0x0000000A))).core.statusWord = 0x00000042 := by
  decide

/-! ## The host port -/

/-- The word a read returns, and the core and response a write leaves. -/
def rd (c : CoreState) (a : Nat) : Option (Word × Resp) :=
  (c.transact Params.reference (memRead Params.reference a)).map fun r => (r.data, r.resp)
def wr (c : CoreState) (a : Nat) (v : Word) : CoreState :=
  ((c.transact Params.reference (memWrite Params.reference a v)).map BusResult.core).getD c

def core0 : CoreState := State.reset.core
def busy0 : CoreState := core0.accept 0

/-- CTL-1. -/
theorem test_reset_reads :
    rd core0 0x000 = some (0x584F4243, .okay) ∧ rd core0 0x008 = some (0x4, .okay) ∧
    rd core0 0x00C = some (0, .okay) ∧ rd core0 0x014 = some (0, .okay) ∧
    rd core0 0x018 = some (0x400, .okay) ∧ rd core0 0x020 = some (0, .okay) ∧
    rd core0 0x040 = some (0, .okay) := by decide

/-- CTL-7: a misaligned write and a misaligned read. -/
theorem test_bus_errors :
    core0.transact Params.reference (memWrite Params.reference 0x011 5) =
      some { core := core0, data := 0, resp := .buserr } ∧
    rd core0 0x016 = some (0, .buserr) := by decide

/-- CTL-8 and CTL-10: a write while BUSY is dropped and sets WERR, and STATUS is cleared by writing ones. -/
theorem test_busy_write :
    (wr busy0 0x014 5).data.len = 0 ∧
    (nextOf (engineStep { State.reset with core := wr busy0 0x014 5 })).core.statusWord = 0x00000006 ∧
    (wr { core0 with done := true, werr := true } 0x00C 0x2).statusWord = 0x00000004 ∧
    (wr { core0 with werr := true } 0x00C 0x4).statusWord = 0 := by decide

/-- CTL-9: SS reads 0 while BUSY, LEN does not. -/
theorem test_busy_read :
    rd { busy0 with data := { busy0.data with ss := aliceSk, len := 7 } } 0x0A0 = some (0, .okay) ∧
    rd { busy0 with data := { busy0.data with ss := aliceSk, len := 7 } } 0x014 = some (7, .okay) := by decide

/-- CTL-11: irq rises with the completion and falls with the write of 1 to DONE. -/
theorem test_irq :
    ((wr { core0 with done := true } 0x008 0x5).accept 0).irq = false ∧
    (nextOf (engineStep { State.reset with core := (wr core0 0x008 0x5).accept 0 })).core.irq = true ∧
    (wr { core0 with done := true, data := { ops0 with ctrl := Ctrl.ofWord 5 } } 0x00C 0x2).irq = false := by decide

/-- CTL-12. -/
theorem test_reserved :
    wr core0 0x004 0xFFFFFFFF = core0 ∧ rd core0 0x004 = some (0, .okay) ∧
    rd (wr core0 0x008 0xFFFFFFFF) 0x008 = some (0x7, .okay) := by decide

/-- CTL-13 and R61: a word of SK is kept, byte 0 from bits 7:0, and reads 0. -/
theorem test_sk_write_only :
    (wr core0 0x040 0x0a6d0777).data.sk[0] = 0x77 ∧ (wr core0 0x040 0x0a6d0777).data.sk[3] = 0x0a ∧
    rd (wr core0 0x040 0x0a6d0777) 0x040 = some (0, .okay) := by decide

/-- R61, R62: a word written to BUF at 0x1010 is bytes 16 to 19, and reads back. -/
theorem test_buf_word :
    (wr core0 0x1010 0x20656854).data.buf.cells = [(16, 0x54), (17, 0x68), (18, 0x65), (19, 0x20)] ∧
    rd (wr core0 0x1010 0x20656854) 0x1010 = some (0x20656854, .okay) := by decide

/-- The word placed for the next step is the command the next step runs. -/
theorem test_fetch :
    (nextOf (step (State.reset.withFetchWord 32 0x00000006))).core.statusWord = 0x00000052 ∧
    (nextOf (step ({ State.reset with turns := [.host] }.withFetchWord 32 0x00000000))).turns = [.host] := by decide

/-- P4: a host turn listed before the engine's lets `WR LEN, 4` come while NOP is pending. -/
theorem test_turns :
    (nextOf (step { (State.reset.withProgram [.wr 0x014 4]) with core := busy0, turns := [.host] })).core.werr = true ∧
    (nextOf (step { (State.reset.withProgram [.wr 0x014 4]) with core := busy0 })).core.done = true := by decide

/-- A host write of LEN while rst is asserted. -/
def heldWrite : State := { (State.reset.withProgram [.wr 0x014 4]) with rst := true }

theorem heldWrite_next : step heldWrite = .next (nextOf (step heldWrite)) := rfl

/-- R235: while rst is asserted the write leaves LEN at 0 and the host goes on, and releasing rst leaves the reset
state. -/
theorem test_rst_held :
    (nextOf (step heldWrite)).core = CoreState.reset 1 ∧ (nextOf (step heldWrite)).host.pc = 1 ∧
    (nextOf (step { heldWrite with turns := [.rst false] })).core = CoreState.reset 1 ∧
    (nextOf (step { heldWrite with turns := [.rst false] })).rst = false ∧
    (nextOf (step { State.reset with core := busy0, turns := [.rst true] })).core.statusWord = 0 := by decide

/-! ## Witnesses: each obligation's hypotheses are met -/

def lochk1 : Ctrl := { ie := false, lochk := true, nacl := true }

/-- A word pending at reset, with no turn listed and with the engine's turn listed. -/
theorem witness_StepRunsThePendingCommand :
    (State.reset.withFetchWord 32 8).core.pending = some { word := 8, snapshot := ops0 } ∧
    decodeWord 8 = .command .sealBox ∧ (State.reset.withFetchWord 32 8).turns = [] ∧
    (State.reset.withFetchWord 32 8).rst = false ∧
    ({ State.reset with turns := [.host] }.withFetchWord 32 8).turns = .engine :: [.host] := by decide

theorem witness_DecodeAndEncodeAgree :
    Instr.wf .clear = true ∧ decodeWord 0x0000000F = .command .clear ∧ decodeWord 0x00000009 = .command .openBox := by
  decide

/-- The ends of the three clauses. -/
theorem witness_IllegalWordsCompleteAsIllegalCmd :
    (0x00000100 : Word).toNat / 2 ^ 8 ≠ 0 ∧ (0xFFFFFFFF : Word).toNat / 2 ^ 8 ≠ 0 ∧
    (0x0A ≤ (0x0000000A : Word).toNat % 2 ^ 8 ∧ (0x0000000E : Word).toNat % 2 ^ 8 ≤ 0x0E) ∧
    0x10 ≤ (0x00000010 : Word).toNat % 2 ^ 8 ∧ 0x10 ≤ (0x000000FF : Word).toNat % 2 ^ 8 := by decide

theorem witness_EveryPendingWordCompletes :
    (State.reset.accepted 0x0000000A).core.pending = some { word := 0x0000000A, snapshot := ops0 } := by decide

/-- An all-zero result with LOCHK = 0, and a result that is not zero with LOCHK = 1 (KA-5). -/
theorem witness_AgreeStoresTheSharedSecret :
    ¬ (withOps ops0).core.snapshot.lowOrder ∧
    ¬ (withOps { ops0 with ctrl := lochk1, pk := mem 32 (9 * 256 ^ 31) }).core.snapshot.lowOrder := by
  unfold Operands.lowOrder
  decide +kernel

/-- The last offset from which 32 bytes may be taken. -/
theorem witness_KsOtkTakesTheNextBytes :
    (withOps (cursorOps 0xFFFFFFFFFFFFFFDF 0)).core.snapshot.cursor.cur = true ∧
    ¬ (withOps (cursorOps 0xFFFFFFFFFFFFFFDF 0)).core.snapshot.runsOut 32 := by
  unfold Operands.runsOut
  decide

/-- The longest message, and the last offset with an empty one. -/
theorem witness_KsXorCombinesTheMessage :
    (¬ (withOps (cursorOps 32 1008)).core.snapshot.overLong State.reset.cfg ∧
      (withOps (cursorOps 32 1008)).core.snapshot.cursor.cur = true ∧
      ¬ (withOps (cursorOps 32 1008)).core.snapshot.runsOut 1008) ∧
    (¬ (withOps (cursorOps 0xFFFFFFFFFFFFFFFF 0)).core.snapshot.overLong State.reset.cfg ∧
      ¬ (withOps (cursorOps 0xFFFFFFFFFFFFFFFF 0)).core.snapshot.runsOut 0) := by
  unfold Operands.runsOut Operands.overLong
  decide

/-- POLY, and SEAL with LOCHK = 0, on the longest message. -/
theorem witness_PolyWritesTheTag_SealWritesTheBox :
    ¬ (withOps { ops0 with len := 1008 }).core.snapshot.overLong State.reset.cfg ∧
    ¬ (withOps { ops0 with len := 1008 }).core.snapshot.lowOrder := by
  unfold Operands.overLong Operands.lowOrder
  decide

/-- BOX-5: Alice's empty box. -/
def emptyBox (t : Nat) : Operands := { aliceOps with buf := ops0.buf.writeSlice 0 (mem 16 t).toList }

theorem witness_OpenDecryptsAVerifiedBox :
    ¬ (withOps (emptyBox 0x2539121d8e234e652d651fa4c8cff880)).core.snapshot.overLong State.reset.cfg ∧
    ¬ (withOps (emptyBox 0x2539121d8e234e652d651fa4c8cff880)).core.snapshot.lowOrder ∧
    ¬ (withOps (emptyBox 0x2539121d8e234e652d651fa4c8cff880)).core.snapshot.tagDiffers := by
  unfold Operands.overLong Operands.lowOrder Operands.tagDiffers
  decide +kernel

theorem witness_OpenReleasesNothingOnAWrongTag :
    ¬ (withOps (emptyBox 0x2539121d8e234e652d651fa4c8cff881)).core.snapshot.overLong State.reset.cfg ∧
    ¬ (withOps (emptyBox 0x2539121d8e234e652d651fa4c8cff881)).core.snapshot.lowOrder ∧
    (withOps (emptyBox 0x2539121d8e234e652d651fa4c8cff881)).core.snapshot.tagDiffers := by
  unfold Operands.overLong Operands.lowOrder Operands.tagDiffers
  decide +kernel

theorem witness_FirstErrorInPriorityIsReported : decodeWord 0x00000010 = .illegal .reservedOp := by decide

theorem witness_FailedCommandsWriteOnlyStatus :
    exec .ksOtk State.reset = .next (State.reset.failedWith .noCursor) ∧
    (State.reset.failedWith .noCursor).core.err ≠ .ok := ⟨rfl, by decide⟩

/-- A next state for a command that writes BUF and for one that does not. -/
theorem witness_CommandsWriteOnlyTheirOperands :
    (∃ t, exec .poly State.reset = .next t) ∧ (∃ t, exec .nop State.reset = .next t) ∧
    (∃ t, exec .clear State.reset = .next t) :=
  ⟨⟨_, exec_eq_finish .poly State.reset⟩, ⟨_, exec_eq_finish .nop State.reset⟩, ⟨_, exec_eq_finish .clear State.reset⟩⟩

/-- Scalars that differ in all five ignored bits. -/
theorem witness_IgnoredScalarBits :
    ∀ (b : Nat) (hb : b < 256), b ≠ 0 → b ≠ 1 → b ≠ 2 → b ≠ 254 → b ≠ 255 →
      (aliceSk[b / 8]'(by omega)).getLsbD (b % 8) =
        ((mem 32 0x70076d0a7318a57d3c16c17251b26645df4c2f87ebc0992ab177fba51db92cea)[b / 8]'(by omega)).getLsbD
          (b % 8) := by decide +kernel

theorem witness_ClampingFixesFiveBits : (0 : Nat) < 256 ∧ (254 : Nat) < 256 ∧ (255 : Nat) < 256 := by decide

/-- KA-8: bit 255 set; and p + 9, and the largest such value, p + 18. -/
theorem witness_PointDecodingMasksAndReduces :
    (∀ (i : Nat) (hi : i < 31), (mem 32 (9 * 256 ^ 31))[i] = (mem 32 (9 * 256 ^ 31 + 0x80))[i]) ∧
    (mem 32 (9 * 256 ^ 31))[31] &&& 0x7F = (mem 32 (9 * 256 ^ 31 + 0x80))[31] &&& 0x7F ∧
    le (mem 32 0xf6ffffffffffffffffffffffffffffffffffffffffffffffffffffffffffff7f).toList =
      le (mem 32 (9 * 256 ^ 31)).toList + p25519 ∧
    le (mem 32 0xffffffffffffffffffffffffffffffffffffffffffffffffffffffffffffff7f).toList =
      le (mem 32 (18 * 256 ^ 31)).toList + p25519 ∧
    le (mem 32 0xffffffffffffffffffffffffffffffffffffffffffffffffffffffffffffff7f).toList < 2 ^ 255 := by
  decide +kernel

theorem witness_FieldOperationsAreExact : 0 < p25519 ∧ p25519 - 1 < p25519 := by decide

/-- The point 0, and p, which decodes to 0. -/
theorem witness_ZeroPointGivesZeroForEveryScalar :
    decodeU (zeroBytes 32) = 0 ∧
    decodeU (mem 32 0xedffffffffffffffffffffffffffffffffffffffffffffffffffffffffffff7f) = 0 := by decide +kernel

/-- LOCHK = 1 and SK = PK = 0, with the longest message. -/
theorem witness_LowOrderCheckRejects :
    (withOps { ops0 with ctrl := lochk1, len := 1008 }).core.snapshot.lowOrder ∧
    ¬ (withOps { ops0 with ctrl := lochk1, len := 1008 }).core.snapshot.overLong State.reset.cfg := by
  unfold Operands.overLong Operands.lowOrder
  decide +kernel

theorem witness_QuarterRoundIsABijection :
    ((0 : Fin 16) ≠ 4 ∧ (0 : Fin 16) ≠ 8 ∧ (0 : Fin 16) ≠ 12 ∧ (4 : Fin 16) ≠ 8 ∧ (4 : Fin 16) ≠ 12 ∧ (8 : Fin 16) ≠ 12) ∧
    (let x : Matrix := #v[1, 7, 7, 7, 0, 7, 7, 7, 0, 7, 7, 7, 0, 7, 7, 7]
     x[0] = 1 ∧ x[4] = 0 ∧ x[8] = 0 ∧ x[12] = 0) := by decide

theorem witness_BlockInputLayout : (2 : Nat) ^ 32 < 2 ^ 64 ∧ 2 ^ 64 - 1 < 2 ^ 64 := by decide

theorem witness_KeystreamByteAtItsOffset : (0 : Nat) < 1 ∧ (63 : Nat) < 64 := by decide

/-- The three commands, run one after another from reset with LEN = 4. -/
theorem witness_FirstDataByteIsKeystreamByte32 :
    ∃ s₁ r₁ s₂ r₂ s₃ : State, (withOps { ops0 with len := 4 }).runCommand .ksInit = .next s₁ ∧
      r₁.core.data.cursor = s₁.core.data.cursor ∧ r₁.runCommand .ksOtk = .next s₂ ∧
      r₂.core.data.cursor = s₂.core.data.cursor ∧ r₂.runCommand .ksXor = .next s₃ ∧
      0 < r₂.core.data.len.toNat ∧ ¬ r₂.core.data.overLong r₂.cfg := by
  refine ⟨_, _, _, _, _, runCommand_eq _ _, rfl, runCommand_eq _ _, rfl, runCommand_eq _ _, ?_, ?_⟩
  · decide +kernel
  · unfold Operands.overLong
    decide +kernel

/-- The invariant in the reset state, and with KS_OTK pending on a valid cursor. -/
theorem witness_reset_inv : State.reset.Inv :=
  ⟨⟨rfl, rfl, fun _ h => by simp [State.reset, State.resetWith, CoreState.reset] at h,
    fun h => by simp [State.reset, State.resetWith, CoreState.reset, CoreState.busy] at h, fun _ => rfl⟩, (fun h => by cases h), rfl⟩

def ksOtkPending : State := (withOps (cursorOps 64 0)).withFetchWord 32 0x00000005

theorem witness_EveryStepKeepsTheInvariant_CursorOffsetOnlyGrows :
    ksOtkPending.Inv ∧ ∃ t, step ksOtkPending = .next t :=
  ⟨⟨⟨rfl, rfl, fun p h => by cases h; rfl, fun _ => ⟨rfl, rfl⟩, fun h => by cases h⟩, (fun h => by cases h), rfl⟩,
    ⟨_, exec_eq_finish .ksOtk ksOtkPending⟩⟩

/-- A message of 17 bytes has the blocks 0 and 1. -/
theorem witness_MacBlocksPartitionTheMessage :
    (0 : Nat) < (polyBlocks (List.replicate 17 0)).length ∧ (1 : Nat) < (polyBlocks (List.replicate 17 0)).length := by
  decide

theorem witness_TagOfNothingIsTheSecondHalf :
    polyR (mem 32 0x000000f0030000f0030000f0030000f0ffffffffffffffffffffffffffffffff) = 0 := by decide +kernel

/-- The primitive commands run to their end with NACL = 1 and with NACL = 0, on the empty and the longest message. -/
theorem witness_SealEqualsThePrimitiveCommands :
    State.reset.core.busy = false ∧
    (State.runAll [.agree, .hkey, .hsalsa, .ksInit, .ksOtk, .ksXor, .poly]
      (withOps { ops0 with len := 1008 })).isSome = true ∧
    (State.runAll [.agree, .hsalsa, .ksInit, .ksOtk, .ksXor, .poly]
      (withOps { ops0 with ctrl := Ctrl.ofWord 0 })).isSome = true := by decide +kernel

/-- Alice's machine after SEAL of the empty message, and Bob's with that box, and with one bit of its tag flipped. -/
def aliceSealed : State := nextOf ((withOps aliceOps).runCommand .sealBox)
def bobHolding : State := withOps { bobOps with buf := aliceSealed.core.data.buf }
def bobTampered : State := withOps
  { bobOps with buf := aliceSealed.core.data.buf.write 0 (aliceSealed.core.data.buf.read 0 ^^^ 1) }

theorem aliceSealed_next : (withOps aliceOps).runCommand .sealBox = .next aliceSealed := by
  rw [aliceSealed, runCommand_eq]
  rfl

theorem aliceSealed_ok : aliceSealed.core.err = .ok := by decide +kernel

/-- KA-3: both sides have one shared secret. -/
theorem bob_sharedSecret : bobOps.sharedSecret = aliceOps.sharedSecret := by
  unfold Operands.sharedSecret
  decide +kernel

theorem witness_OpenUndoesSeal :
    (withOps aliceOps).runCommand .sealBox = .next aliceSealed ∧ aliceSealed.core.err = .ok ∧
    bobHolding.cfg = (withOps aliceOps).cfg ∧ bobHolding.core.data.ctrl = (withOps aliceOps).core.data.ctrl ∧
    bobHolding.core.data.len = (withOps aliceOps).core.data.len ∧
    bobHolding.core.data.nonce = (withOps aliceOps).core.data.nonce ∧
    bobHolding.core.data.sharedSecret = (withOps aliceOps).core.data.sharedSecret ∧
    ∀ a < 16 + (withOps aliceOps).core.data.len.toNat,
      bobHolding.core.data.buf.read a = aliceSealed.core.data.buf.read a :=
  ⟨aliceSealed_next, aliceSealed_ok, rfl, rfl, rfl, rfl, bob_sharedSecret, fun _ _ => rfl⟩

theorem witness_OpenRejectsAFlippedTag :
    (withOps aliceOps).runCommand .sealBox = .next aliceSealed ∧ aliceSealed.core.err = .ok ∧
    bobTampered.cfg = (withOps aliceOps).cfg ∧ bobTampered.core.data.ctrl = (withOps aliceOps).core.data.ctrl ∧
    bobTampered.core.data.len = (withOps aliceOps).core.data.len ∧
    bobTampered.core.data.nonce = (withOps aliceOps).core.data.nonce ∧
    bobTampered.core.data.sharedSecret = (withOps aliceOps).core.data.sharedSecret ∧
    (∀ j < (withOps aliceOps).core.data.len.toNat,
      bobTampered.core.data.buf.read (16 + j) = aliceSealed.core.data.buf.read (16 + j)) ∧
    ∃ a < 16, bobTampered.core.data.buf.read a ≠ aliceSealed.core.data.buf.read a := by
  refine ⟨aliceSealed_next, aliceSealed_ok, rfl, rfl, rfl, rfl, bob_sharedSecret,
    fun j _ => Memory.read_write_other _ _ (by omega), 0, by decide, ?_⟩
  have hx : ∀ x : Byte, x ^^^ 1 ≠ x := by decide
  have hr : bobTampered.core.data.buf.read 0 = aliceSealed.core.data.buf.read 0 ^^^ 1 :=
    Memory.read_write_same _ _ _
  rw [hr]
  exact hx _

/-- Two machines that differ in state that is no input of SEAL and OPEN. -/
theorem witness_BoxCommandsAreFunctionsOfTheirInputs :
    let s := withOps aliceOps
    let s' := withOps { aliceOps with ss := aliceSk, otk := bobSk }
    s.cfg = s'.cfg ∧ s.core.snapshot.sk = s'.core.snapshot.sk ∧ s.core.snapshot.pk = s'.core.snapshot.pk ∧
    s.core.snapshot.nonce = s'.core.snapshot.nonce ∧ s.core.snapshot.len = s'.core.snapshot.len ∧
    s.core.snapshot.ctrl.lochk = s'.core.snapshot.ctrl.lochk ∧
    s.core.snapshot.ctrl.nacl = s'.core.snapshot.ctrl.nacl ∧
    (∀ a, s.core.snapshot.buf.read a = s'.core.snapshot.buf.read a) ∧
    s.core.snapshot.buf = s.core.data.buf ∧ s'.core.snapshot.buf = s'.core.data.buf ∧
    ∃ t t' u u', exec .sealBox s = .next t ∧ exec .sealBox s' = .next t' ∧
      exec .openBox s = .next u ∧ exec .openBox s' = .next u' :=
  ⟨rfl, rfl, rfl, rfl, rfl, rfl, rfl, fun _ => rfl, rfl, rfl, _, _, _, _, exec_eq_finish _ _, exec_eq_finish _ _,
    exec_eq_finish _ _, exec_eq_finish _ _⟩

/-- A misaligned access at the window's end, a narrow and a wide one, and one with two lanes. -/
theorem witness_BusErrorsHaveNoEffect :
    (Params.reference.base ≤ 0x13FF ∧ 0x13FF - Params.reference.base < Params.reference.windowBytes ∧
      (0x13FF - Params.reference.base) % 4 ≠ 0) ∧
    Width.w8 ≠ .w32 ∧ Width.w64 ≠ .w32 ∧ (0x3 : BitVec 4) ≠ 0xF := by decide

/-- The first offset past the window. -/
theorem witness_AccessOutsideTheWindowStops :
    let s := State.reset.withProgram [.wr 0x1400 0]
    s.turns = [] ∧ s.core.busy = false ∧ s.host.prog[s.host.pc]? = some (.wr 0x1400 0) ∧ s.cfg.windowBytes ≤ 0x1400 := by
  decide

theorem witness_ReadsHaveNoSideEffects :
    (memRead Params.reference 0x00C).access = .read ∧
    core0.transact Params.reference (memRead Params.reference 0x00C) =
      some { core := core0, data := 0, resp := .okay } := by decide

theorem witness_CmdWriteAccepts : core0.busy = false := by decide

/-- The first, the STATUS and the last word offset of the window. -/
theorem witness_WritesWhileBusyAreDropped_ReadsWhileBusyShowOnlyControl :
    busy0.busy = true ∧ (0x000 % 4 = 0 ∧ 0x000 < Params.reference.windowBytes) ∧
    (0x00C % 4 = 0 ∧ 0x00C < Params.reference.windowBytes) ∧
    (0x13FC % 4 = 0 ∧ 0x13FC < Params.reference.windowBytes ∧ 0x13FC ≠ 0x00C) ∧
    (core0.busy = false ∧
      ∀ a ∈ [0x000, 0x004, 0x008, 0x00C, 0x010, 0x014, 0x018, 0x01C, 0x020, 0x024, 0x028, 0x03C, 0x040, 0x05C, 0x060,
          0x07C, 0x080, 0x094, 0x098, 0x09C, 0x0A0, 0x0BC, 0x0C0, 0x0DC, 0x0E0, 0x0FC, 0x100, 0xFFC, 0x1000, 0x13FC],
        a % 4 = 0 ∧ a < Params.reference.windowBytes) := by decide

/-- Two COREs with different SK, cursor key and pending word. -/
theorem witness_SecretsAreNotReadable :
    busy0.sameButSecrets { busy0 with
      data := { ops0 with sk := aliceSk, cursor := { Cursor.reset with key := bobSk } }
      pending := some { word := 7, snapshot := aliceOps } } := by
  unfold CoreState.sameButSecrets
  decide

/-- The ends of each range of writable registers and of BUF. -/
theorem witness_WrittenWordReadsBack :
    core0.busy = false ∧
    (∀ a ∈ [0x008, 0x014, 0x040, 0x05C, 0x060, 0x07C, 0x080, 0x094, 0x0A0, 0x0BC, 0x0C0, 0x0DC, 0x0E0, 0x0FC,
        0x1000, 0x13FC],
      a % 4 = 0 ∧ a < Params.reference.windowBytes ∧
      (core0.transact Params.reference (memWrite Params.reference a 1)).isSome = true) := by decide

/-- The ends of each reserved range. -/
theorem witness_ReadOnlyAndReservedOffsetsIgnoreWrites :
    core0.busy = false ∧ ∀ a ∈ [0x000, 0x024, 0x004, 0x028, 0x03C, 0x098, 0x09C, 0x100, 0xFFC], a % 4 = 0 := by decide

theorem witness_WaitEnds :
    let s := { (State.reset.withProgram [.rd 0x00C 5, .bnz 5 0x1 0]) with core := busy0 }
    s.turns = [] ∧ s.rst = false ∧ s.core.busy = true ∧ s.host.prog[s.host.pc]? = some (.rd 0x00C 5) ∧
    s.host.prog[s.host.pc + 1]? = some (.bnz 5 0x1 s.host.pc) := by decide

theorem witness_InterruptFollowsCompletion :
    busy0.pending = some { word := 0, snapshot := ops0 } ∧ (0x2 : Word).getLsbD 1 = true ∧ core0.busy = false ∧
    (0x6 : Word).getLsbD 0 = false := by decide

theorem witness_ResetDiscardsThePendingCommand :
    { State.reset with core := busy0, turns := [.rst true, .host] }.turns = .rst true :: [.host] ∧
    { State.reset with rst := true, turns := [.rst false] }.turns = .rst false :: [] ∧
    { State.reset with rst := true, turns := [.rst false] }.rst = true ∧
    (∃ t, step heldWrite = .next t) ∧ heldWrite.rst = true :=
  ⟨rfl, rfl, rfl, ⟨_, heldWrite_next⟩, rfl⟩

end Sys2Proof.Tests
end

section
/-! SUPPORT and proofs of the state's family (spec/10_state.md): what the register map reads right after reset (R50),
and how KS_OFF moves in a step (R45). -/

namespace Sys2Proof.Machine

/-! ## The values right after reset (R50) -/

/-- While BUSY = 0 every offset shows its port's current value. -/
theorem CoreState.view_of_not_busy {c : CoreState} (h : c.busy = false) (cfg : Params) (a : Nat) :
    c.view cfg a = c.readIdle cfg (portAt a) := by
  simp [CoreState.view, CoreState.readPort, h]

/-- Right after reset every offset shows its port's current value. -/
theorem State.resetWith_view (p : Params) (a : Nat) :
    (State.resetWith p).core.view p a = (CoreState.reset 0).readIdle p (portAt a) :=
  CoreState.view_of_not_busy rfl p a

/-- Settles O57: each word offset by its row of the register map, every other field by the reset state's definition. -/
theorem resetLeavesTheStatedValues : Obligations.ResetLeavesTheStatedValues := by
  intro p
  obtain ⟨hid, hctrl, hstatus, -, hlen, hbufsz, hksoffLo, hksoffHi⟩ := portAt_word
  simp only [State.resetWith_view, hid, hctrl, hstatus, hlen, hbufsz, hksoffLo, hksoffHi]
  exact ⟨rfl, rfl, rfl, rfl, rfl, rfl, rfl, rfl, rfl, rfl, rfl, rfl, rfl, rfl, rfl, rfl⟩

/-! ## What leaves the cursor as it is -/

/-- No transaction changes the cursor (R30, R44). -/
theorem transact_cursor {c : CoreState} {cfg : Params} {op : BusOp} {r : BusResult}
    (h : c.transact cfg op = some r) : r.core.data.cursor = c.data.cursor := by
  obtain ⟨a, _, ⟨_, rfl⟩ | ⟨_, _, rfl⟩ | ⟨v, _, _, rfl⟩⟩ := transact_cases h
  · rfl
  · rfl
  · rcases writePort_cases c v (portAt a) with ⟨_, e⟩ | ⟨_, _, e⟩ | ⟨_, _, e⟩ <;> simp only [e]
    · rw [CoreState.writeStatus_data]
    · rw [CoreState.dropWrite_data]
    · exact writeIdle_cursor c v _

/-- No host step changes the cursor. -/
theorem hostStep_cursor {s t : State} (h : hostStep s = .next t) : t.core.data.cursor = s.core.data.cursor := by
  rcases hostStep_cases h with rfl | ⟨_, rfl⟩ | ⟨_, r, _, _, hr, rfl⟩
  · rfl
  · rfl
  · exact transact_cursor hr

/-- The cursor of a CORE in its reset state. -/
theorem CoreState.isReset.cursor {c : CoreState} (h : c.isReset) : c.data.cursor = Cursor.reset :=
  congrArg (fun c => c.data.cursor) h

/-- Under the invariant the level of `rst` either changes nothing or leaves the cursor as it was, at its reset value. -/
theorem held_cursor {s u : State} (hi : s.Inv) (hu : u.rst = s.rst) :
    u.held = u ∨ u.held.core.data.cursor = s.core.data.cursor := by
  cases hr : s.rst with
  | false => exact .inl (State.held_low (hu.trans hr))
  | true =>
    rw [State.held_high (hu.trans hr), (hi.held hr).cursor]
    exact .inr rfl

/-- Driving `rst` under the invariant leaves the cursor as it was, or resets it as `rst` is asserted. -/
theorem driveRst_cursor {s : State} (hi : s.Inv) (level : Bool) :
    (s.dropTurn.driveRst level).core.data.cursor = s.core.data.cursor ∨
    (level = true ∧ (s.dropTurn.driveRst level).core.data.cursor = Cursor.reset) := by
  cases level with
  | true => exact .inr ⟨rfl, rfl⟩
  | false =>
    cases hr : s.rst with
    | false => simp [hr]
    | true => exact .inl (by simp [hr, (hi.held hr).cursor, Operands.reset])

/-! ## How the commands move KS_OFF (R45) -/

/-- The commands that move KS_OFF between the operands `d` and `d'`: KS_INIT and CLEAR start the cursor anew (R155,
R202), KS_OTK and KS_XOR advance it by the bytes they emit (R156, R157). -/
inductive OffMoves (d d' : Operands) : Instr → Prop
  | ksInit : d'.cursor.off = 0 → OffMoves d d' .ksInit
  | clear : d'.cursor.off = 0 → OffMoves d d' .clear
  | ksOtk : d'.cursor.off.toNat = d.cursor.off.toNat + 32 → OffMoves d d' .ksOtk
  | ksXor : d'.cursor.off.toNat = d.cursor.off.toNat + d.len.toNat → OffMoves d d' .ksXor

/-- An advance that KS_EXHAUSTED does not refuse is exact: it does not wrap at 2^64 (R159). -/
theorem off_add_toNat {d : Operands} {n : Nat} (h : ¬ d.runsOut n) :
    (d.cursor.off + BitVec.ofNat 64 n).toNat = d.cursor.off.toNat + n := by
  have hlt : d.cursor.off.toNat + n < 2 ^ 64 := Nat.lt_of_not_le h
  rw [BitVec.toNat_add, BitVec.toNat_ofNat, Nat.add_mod_mod, Nat.mod_eq_of_lt hlt]

/-- A command run on its own operands keeps KS_OFF or moves it as `OffMoves` says. -/
theorem commandBody_off {cfg : Params} {i : Instr} {d d' : Operands} (h : commandBody cfg i d d = .ok d') :
    d'.cursor.off = d.cursor.off ∨ OffMoves d d' i := by
  cases i with
  | nop => exact .inl (by rw [nopBody_ok h])
  | agree => exact .inl (by rw [(agreeBody_ok h).2])
  | hkey => exact .inl (by rw [hkeyBody_ok h])
  | hsalsa => exact .inl (by rw [hsalsaBody_ok h])
  | ksInit => exact .inr (.ksInit (by rw [ksInitBody_ok h]))
  | ksOtk =>
    obtain ⟨_, hroom, rfl⟩ := ksOtkBody_ok h
    exact .inr (.ksOtk (off_add_toNat hroom))
  | ksXor =>
    obtain ⟨_, _, hroom, rfl⟩ := ksXorBody_ok h
    exact .inr (.ksXor (off_add_toNat hroom))
  | poly => exact .inl (by rw [(polyBody_ok h).2, Operands.withTag_cursor])
  | sealBox =>
    obtain ⟨_, _, _, _, _, _, rfl⟩ := sealBody_ok h
    exact .inl (by rw [Operands.withMessage_cursor, Operands.withTag_cursor])
  | openBox =>
    obtain ⟨_, _, _, _, _, rfl⟩ := openBody_ok h
    exact .inl (by rw [Operands.withMessage_cursor])
  | clear => exact .inr (.clear (by rw [clearBody_ok h]; rfl))

/-- Under the invariant the engine computes on the data as it stands (R13, R241). -/
theorem CoreState.Inv.snapshot_eq {cfg : Params} {c : CoreState} (hi : c.Inv cfg) : c.snapshot = c.data := by
  cases hp : c.pending with
  | none => simp [CoreState.snapshot, hp]
  | some p => simpa [CoreState.snapshot, hp] using hi.snapshotCurrent p hp

/-- An engine step keeps KS_OFF, or completes a pending command that moves it. -/
theorem engineStep_off {s t : State} (hi : s.core.Inv s.cfg) (h : engineStep s = .next t) :
    t.core.data.cursor.off = s.core.data.cursor.off ∨
    ∃ p i, s.core.pending = some p ∧ decodeWord p.word = .command i ∧ t.core.pending = none ∧
      OffMoves s.core.data t.core.data i := by
  rcases engineStep_cases h with ⟨_, rfl⟩ | ⟨p, i, hp, hd, rfl⟩ | ⟨_, _, _, _, rfl⟩
  · exact .inl rfl
  · rw [hi.snapshot_eq]
    rcases finish_cases s (commandBody s.cfg i s.core.data s.core.data) with ⟨d, hr, e⟩ | ⟨_, _, e⟩ <;> rw [e]
    · exact (commandBody_off hr).imp id fun hm => ⟨p, i, hp, hd, rfl, hm⟩
    · exact .inl rfl
  · exact .inl rfl

/-- Taking a turn, or having none to take, keeps the CORE and the invariant. -/
theorem turnTaken_keeps {s s' : State} (h : s' = s ∨ s' = s.dropTurn) (hi : s.Inv) :
    s'.core = s.core ∧ s'.Inv := by
  rcases h with rfl | rfl
  · exact ⟨rfl, hi⟩
  · exact ⟨rfl, hi.core, hi.held, hi.names⟩

/-- A step under the invariant keeps KS_OFF, asserts `rst`, or completes a pending command that moves KS_OFF. -/
theorem step_off {s t : State} (hi : s.Inv) (h : step s = .next t) :
    t.core.data.cursor.off = s.core.data.cursor.off ∨
    (s.turns.head? = some (.rst true) ∧ t.core.data.cursor.off = 0) ∨
    ∃ p i, s.core.pending = some p ∧ decodeWord p.word = .command i ∧ t.core.pending = none ∧
      OffMoves s.core.data t.core.data i := by
  rcases step_cases s with ⟨s', hs', e⟩ | ⟨s', hs', e⟩ | ⟨level, hl, e⟩ <;> rw [e] at h
  · obtain ⟨hcore, hi'⟩ := turnTaken_keeps hs' hi
    obtain ⟨u, hu, rfl⟩ := heldOutcome_inv h
    rw [← hcore]
    rcases held_cursor hi' (engineStep_rst hu) with hheld | hheld
    · rw [hheld]
      exact (engineStep_off hi'.core hu).imp id .inr
    · exact .inl (by rw [hheld])
  · obtain ⟨hcore, hi'⟩ := turnTaken_keeps hs' hi
    obtain ⟨u, hu, rfl⟩ := heldOutcome_inv h
    rw [← hcore]
    rcases held_cursor hi' (hostStep_rst hu) with hheld | hheld
    · exact .inl (by rw [hheld, hostStep_cursor hu])
    · exact .inl (by rw [hheld])
  · cases h
    rcases driveRst_cursor hi level with hc | ⟨rfl, hc⟩
    · exact .inl (by rw [hc])
    · exact .inr (.inl ⟨hl, by rw [hc]; rfl⟩)

/-- Settles O36, by the command that the step completes. -/
theorem cursorOffsetOnlyGrows : Obligations.CursorOffsetOnlyGrows := by
  intro s t hi h
  refine (step_off hi h).imp id (Or.imp id ?_)
  rintro ⟨p, i, hp, hd, hnone, hm⟩
  refine ⟨p, hp, hnone, ?_⟩
  cases hm with
  | ksInit hoff => exact .inl ⟨.inl hd, hoff⟩
  | clear hoff => exact .inl ⟨.inr hd, hoff⟩
  | ksOtk hoff => exact .inr (.inl ⟨hd, hoff⟩)
  | ksXor hoff => exact .inr (.inr ⟨hd, hoff⟩)

end Sys2Proof.Machine
end

section
/-! SUPPORT and proofs of the memory family (spec/20_memory.md): bus errors (R63 to R65) and reads (R68) on the host
port. -/

namespace Sys2Proof.Machine

/-! ## Bus errors (R63 to R65) -/

/-- The window's offset of an address inside it. -/
theorem windowOffset_of_inside {cfg : Params} {addr : Nat} (hbase : cfg.base ≤ addr)
    (hlt : addr - cfg.base < cfg.windowBytes) : windowOffset cfg addr = some (addr - cfg.base) := by
  simpa only [Nat.add_sub_cancel' hbase] using windowOffset_base hlt

/-- The three ways a transaction is illegal: by its alignment (R63), its width or its lanes (R64). -/
theorem busLegal_eq_false_iff {op : BusOp} {a : Nat} :
    busLegal op a = false ↔ a % 4 ≠ 0 ∨ op.width ≠ .w32 ∨ op.lanes ≠ 0xF := by
  simp only [busLegal, Bool.and_eq_false_iff, beq_eq_false_iff_ne, or_assoc]

/-- An illegal transaction at an offset of the window gets BUSERR with datum 0 and has no effect. -/
theorem transact_of_illegal (c : CoreState) {cfg : Params} {op : BusOp} {a : Nat}
    (ha : windowOffset cfg op.addr = some a) (hl : busLegal op a = false) :
    c.transact cfg op = some { core := c, data := 0, resp := .buserr } := by
  simp [CoreState.transact, ha, hl]

/-- Settles O45: each of the three causes makes the transaction illegal at its offset in the window. -/
theorem busErrorsHaveNoEffect : Obligations.BusErrorsHaveNoEffect := by
  intro c cfg op hbase hlt hcause
  exact transact_of_illegal c (windowOffset_of_inside hbase hlt) (busLegal_eq_false_iff.mpr hcause)

/-! ## Reads (R68) -/

/-- A read that the CORE answers, with OKAY or with BUSERR, leaves the CORE as it is. -/
theorem transact_read_core {c : CoreState} {cfg : Params} {op : BusOp} {r : BusResult} (hread : op.access = .read)
    (h : c.transact cfg op = some r) : r.core = c := by
  obtain ⟨_, _, ⟨_, rfl⟩ | ⟨_, _, rfl⟩ | ⟨v, _, hwrite, _⟩⟩ := transact_cases h
  · rfl
  · rfl
  · exact absurd (hread.symm.trans hwrite) Access.noConfusion

/-- Settles O47: the second read meets the same CORE, so it is the first read again. -/
theorem readsHaveNoSideEffects : Obligations.ReadsHaveNoSideEffects := by
  intro c cfg op r hread h
  have hcore : r.core = c := transact_read_core hread h
  exact ⟨hcore, by rw [hcore]; exact h⟩

end Sys2Proof.Machine
end

section
/-! SUPPORT and proofs of the encoding family (spec/30_encoding.md): the command word by its two fields (R85, R88), its
illegal values (R89, R90) and the accept of a word written to CMD (R91). -/

namespace Sys2Proof.Machine

/-! ## The fields of a command word (R85) -/

theorem fieldMbz_toNat (w : Word) : (fieldMbz w).toNat = w.toNat / 2 ^ 8 := by
  rw [fieldMbz, BitVec.extractLsb'_toNat, Nat.shiftRight_eq_div_pow]
  exact Nat.mod_eq_of_lt (by omega)

theorem fieldOp_toNat (w : Word) : (fieldOp w).toNat = w.toNat % 2 ^ 8 := by
  rw [fieldOp, BitVec.extractLsb'_toNat, Nat.shiftRight_zero]

/-! ## Which words are commands (R88 to R90) -/

/-- The command in the row of an OP is encoded with that OP (R88). -/
theorem encodeOp_of_decodeOp {op : BitVec 8} {i : Instr} (h : decodeOp op = some i) : encodeOp i = op := by
  unfold decodeOp at h
  repeat
    split at h
    · next hop => cases h; exact hop.symm
  cases h

/-- The OPs of the opcode map (R88); every other OP is reserved (R89). -/
theorem encodeOp_toNat (i : Instr) : (encodeOp i).toNat ≤ 0x09 ∨ (encodeOp i).toNat = 0x0F := by
  cases i <;> decide

/-- A word decodes to a command only where MBZ is zero and the opcode map has its OP (R93). -/
theorem decodeWord_command {w : Word} {i : Instr} (h : decodeWord w = .command i) :
    fieldMbz w = 0 ∧ decodeOp (fieldOp w) = some i := by
  unfold decodeWord at h
  split at h
  · next hmbz =>
    split at h
    · next hop => cases h; exact ⟨hmbz, hop⟩
    · cases h
  · cases h

/-- A word with MBZ not zero, or with a reserved OP, is ILLEGAL (R89, R90). -/
theorem decodeWord_illegal {w : Word}
    (h : w.toNat / 2 ^ 8 ≠ 0 ∨ (0x0A ≤ w.toNat % 2 ^ 8 ∧ w.toNat % 2 ^ 8 ≤ 0x0E) ∨ 0x10 ≤ w.toNat % 2 ^ 8) :
    ∃ r, decodeWord w = .illegal r := by
  cases hd : decodeWord w with
  | illegal r => exact ⟨r, rfl⟩
  | command i =>
    obtain ⟨hmbz, hop⟩ := decodeWord_command hd
    have hhigh : w.toNat / 2 ^ 8 = 0 := by rw [← fieldMbz_toNat, hmbz]; rfl
    have hlow : (encodeOp i).toNat = w.toNat % 2 ^ 8 := by rw [encodeOp_of_decodeOp hop, fieldOp_toNat]
    have hmapped := encodeOp_toNat i
    omega

/-- Settles O4: the accepted word is pending and decodes as ILLEGAL, and completing it leaves what the accept had not
changed. -/
theorem illegalWordsCompleteAsIllegalCmd : Obligations.IllegalWordsCompleteAsIllegalCmd := by
  intro s w h
  obtain ⟨r, hd⟩ := decodeWord_illegal h
  rw [engineStep_illegal (s := s.accepted w) rfl hd, State.failedWith_accepted]

/-! ## A write to CMD (R91) -/

/-- While BUSY = 0 a write to CMD accepts the word. -/
theorem writePort_cmd {c : CoreState} (h : c.busy = false) (w : Word) : c.writePort w .cmd = c.accept w := by
  rcases writePort_cases c w .cmd with ⟨hstatus, _⟩ | ⟨_, hbusy, _⟩ | ⟨_, _, hwrite⟩
  · cases hstatus
  · exact absurd (h.symm.trans hbusy) Bool.false_ne_true
  · rw [hwrite, CoreState.writeIdle]

/-- Settles O48: offset 0x010 is CMD's, and an idle write there is the accept. -/
theorem cmdWriteAccepts : Obligations.CmdWriteAccepts := by
  intro c cfg w hidle
  obtain ⟨-, -, -, hcmd, -⟩ := portAt_word
  rw [transact_memWrite c w rfl (lt_windowBytes (by decide)), hcmd, writePort_cmd hidle, CoreState.accept]

end Sys2Proof.Machine
end

section
/-! SUPPORT and proofs of the key agreement family (spec/40_key_agreement.md): the scalar bits that clamping overwrites
(R106, R118), the decoding of the point (R107) and the range of the result (R112). -/

namespace Sys2Proof.Machine

/-! ## Clamping, bit by bit (R106, R118) -/

/-- Byte 0 of a clamped scalar: bits 0, 1 and 2 are cleared. -/
theorem clampLow_getLsbD (b : Byte) {j : Nat} (hj : j < 8) :
    (b &&& 0xF8).getLsbD j = (b.getLsbD j && decide (3 ≤ j)) := by
  have hmask : ∀ j < 8, (0xF8 : Byte).getLsbD j = decide (3 ≤ j) := by decide
  rw [BitVec.getLsbD_and, hmask j hj]

/-- Byte 31 of a clamped scalar: bit 255 is cleared and bit 254 is set. -/
theorem clampHigh_getLsbD (b : Byte) {j : Nat} (hj : j < 8) :
    ((b &&& 0x7F) ||| 0x40).getLsbD j = (b.getLsbD j && decide (j < 7) || decide (j = 6)) := by
  have hclear : ∀ j < 8, (0x7F : Byte).getLsbD j = decide (j < 7) := by decide
  have hset : ∀ j < 8, (0x40 : Byte).getLsbD j = decide (j = 6) := by decide
  rw [BitVec.getLsbD_or, BitVec.getLsbD_and, hclear j hj, hset j hj]

/-- Clamping changes bytes 0 and 31 only. -/
theorem clamp25519_getElem (k : Bytes 32) (i : Nat) (hi : i < 32) :
    (clamp25519 k)[i] =
      if i = 31 then (k[31] &&& 0x7F) ||| 0x40 else if i = 0 then k[0] &&& 0xF8 else k[i] := by
  simp only [clamp25519, Vector.getElem_set, @eq_comm _ _ i]

/-- Scalars that agree on every bit but 0, 1, 2, 254 and 255 are clamped to one scalar. -/
theorem clamp25519_congr {K K' : Bytes 32}
    (h : ∀ (i : Nat) (hi : i < 32) (j : Nat), j < 8 → 3 ≤ 8 * i + j → 8 * i + j < 254 →
      K[i].getLsbD j = K'[i].getLsbD j) :
    clamp25519 K = clamp25519 K' := by
  apply Vector.ext
  intro i hi
  apply BitVec.eq_of_getLsbD_eq
  intro j hj
  rw [clamp25519_getElem, clamp25519_getElem]
  split
  · next hlast =>
    rw [clampHigh_getLsbD _ hj, clampHigh_getLsbD _ hj]
    by_cases hfixed : 6 ≤ j
    · rcases (by omega : j = 6 ∨ j = 7) with rfl | rfl <;> simp
    · rw [h 31 (by decide) j hj (by omega) (by omega)]
  · split
    · next hfirst =>
      rw [clampLow_getLsbD _ hj, clampLow_getLsbD _ hj]
      by_cases hkept : 3 ≤ j
      · rw [h 0 (by decide) j hj (by omega) (by omega)]
      · simp [hkept]
    · rw [h i hi j hj (by omega) (by omega)]

/-- The string X25519 returns encodes the ladder's result (R113). -/
theorem x25519_eq (K U : Bytes 32) :
    x25519 K U = leBytes 32 (ladder (le (clamp25519 K).toList) (decodeU U)) := by
  unfold x25519
  rfl

/-- X25519 uses its operands only clamped and decoded (R113). -/
theorem x25519_congr {K K' U U' : Bytes 32} (hk : clamp25519 K = clamp25519 K') (hu : decodeU U = decodeU U') :
    x25519 K U = x25519 K' U' := by
  rw [x25519_eq, x25519_eq, hk, hu]

/-- Settles O21: bit j of byte i is bit 8i+j of the scalar, and clamping overwrites the five bits. -/
theorem ignoredScalarBits : Obligations.IgnoredScalarBits := by
  intro K K' U h
  refine x25519_congr (clamp25519_congr fun i hi j hj hlow hhigh => ?_) rfl
  have hbyte : (8 * i + j) / 8 = i := by omega
  have hbit : (8 * i + j) % 8 = j := by omega
  simpa only [hbyte, hbit] using
    h (8 * i + j) (by omega) (by omega) (by omega) (by omega) (by omega) (by omega)

/-! ## Decoding the point (R107) -/

/-- The integer of a string by its last byte. -/
theorem le_eq_take_add_last {n : Nat} (b : Bytes (n + 1)) :
    le b.toList = le (b.toList.take n) + 2 ^ (8 * n) * b[n].toNat := by
  have hlen : b.toList.length = n + 1 := by simp
  calc le b.toList = le (b.toList.take (n + 1)) := by rw [List.take_of_length_le hlen.le]
    _ = le (b.toList.take n ++ [b.toList[n]]) := by rw [List.take_append_getElem]
    _ = le (b.toList.take n) + 2 ^ (8 * n) * b[n].toNat := by simp [le_append]

/-- Without bit 255 the integer of the point is its first 31 bytes and the low seven bits of the last. -/
theorem le_mod_two_pow_255 (u : Bytes 32) :
    le u.toList % 2 ^ 255 = le (u.toList.take 31) + 2 ^ 248 * (u[31] &&& 0x7F).toNat := by
  have hlow : le (u.toList.take 31) < 2 ^ 248 := by simpa using le_lt (u.toList.take 31)
  have hmask : (u[31] &&& 0x7F).toNat = u[31].toNat % 2 ^ 7 := by
    rw [BitVec.toNat_and]
    exact Nat.and_two_pow_sub_one_eq_mod _ 7
  rw [hmask, le_eq_take_add_last u]
  omega

/-- Points that differ only in bit 255 decode to one value. -/
theorem decodeU_congr {U U' : Bytes 32} (hlow : ∀ (i : Nat) (hi : i < 31), U[i] = U'[i])
    (hlast : U[31] &&& (0x7F : Byte) = U'[31] &&& (0x7F : Byte)) : decodeU U = decodeU U' := by
  have htake : U.toList.take 31 = U'.toList.take 31 := by
    apply List.ext_getElem
    · simp
    · intro i hi _
      simpa using hlow i (by simpa using hi)
  rw [decodeU, decodeU, le_mod_two_pow_255, le_mod_two_pow_255, htake, hlast]

/-- A point p25519 larger, where that is below 2^255, decodes to the same value. -/
theorem decodeU_add_p25519 {U U' : Bytes 32} (hadd : le U'.toList = le U.toList + p25519)
    (hlt : le U'.toList < 2 ^ 255) : decodeU U = decodeU U' := by
  have hltU : le U.toList < 2 ^ 255 := by omega
  rw [decodeU, decodeU, Nat.mod_eq_of_lt hlt, Nat.mod_eq_of_lt hltU, hadd, Nat.add_mod_right]

/-- Settles O23: the first part is the definition of `decodeU`, and X25519 uses the point only decoded. -/
theorem pointDecodingMasksAndReduces : Obligations.PointDecodingMasksAndReduces :=
  ⟨fun _ => rfl,
   fun _ _ _ hlow hlast => x25519_congr rfl (decodeU_congr hlow hlast),
   fun _ _ _ hadd hlt => x25519_congr rfl (decodeU_add_p25519 hadd hlt)⟩

/-! ## The result (R112) -/

/-- The highest bit of the 32 bytes of an integer below 2^255 is 0. -/
theorem leBytes_bit255 {v : Nat} (h : v < 2 ^ 255) : (leBytes 32 v)[31].getLsbD 7 = false := by
  have hbyte : v / 2 ^ (8 * 31) < 2 ^ 7 := by omega
  rw [leBytes_getElem, BitVec.getLsbD_ofNat, Nat.testBit_lt_two_pow hbyte, Bool.and_false]

/-- Settles O25: the ladder ends in a multiplication, whose result is below p25519 and so below 2^255. -/
theorem sharedSecretIsCanonical : Obligations.SharedSecretIsCanonical := by
  intro K U
  have hp := ladder_lt (le (clamp25519 K).toList) (decodeU U)
  have hlt := hp.trans p25519_lt
  rw [x25519_eq]
  exact ⟨hp, le_leBytes_of_lt (hlt.trans (by norm_num)), leBytes_bit255 hlt⟩

end Sys2Proof.Machine
end

section
/-! SUPPORT and proofs of the ARX permutation family (spec/41_arx_permutation.md): the quarter-round as four updates of
one word each (R127, R128), the permutation as an iterated double round (R133) and the words of a subkey (R136). -/

namespace Sys2Proof.Machine

/-! ## One update of a quarter-round (R127) -/

/-- One line of the quarter-round: the word at `t` is combined with the rotated sum of the words at `u` and `v`. -/
def mixWord (t u v : Fin 16) (n : Nat) (x : Matrix) : Matrix := x.set t (x[t] ^^^ rotl (x[u] + x[v]) n)

/-- The quarter-round is four such updates, the first rightmost. -/
theorem quarterRound_eq_comp (a b c d : Fin 16) :
    (fun x => quarterRound x a b c d) =
      mixWord a d c 18 ∘ mixWord d c b 13 ∘ mixWord c b a 9 ∘ mixWord b a d 7 := rfl

theorem quarterRound_eq (x : Matrix) (a b c d : Fin 16) :
    quarterRound x a b c d = mixWord a d c 18 (mixWord d c b 13 (mixWord c b a 9 (mixWord b a d 7 x))) := rfl

theorem mixWord_getElem_self (t u v : Fin 16) (n : Nat) (x : Matrix) :
    (mixWord t u v n x)[t] = x[t] ^^^ rotl (x[u] + x[v]) n := by
  simp [mixWord]

theorem mixWord_getElem_of_ne {t i : Fin 16} (h : i ≠ t) (u v : Fin 16) (n : Nat) (x : Matrix) :
    (mixWord t u v n x)[i] = x[i] := by
  have hval : t.val ≠ i.val := fun e => h (Fin.ext e.symm)
  simp [mixWord, Vector.getElem_set_ne, hval]

/-- An update that reads only other words undoes itself: the second one adds the same sum. -/
theorem mixWord_involutive {t u v : Fin 16} (hu : u ≠ t) (hv : v ≠ t) (n : Nat) :
    Function.Involutive (mixWord t u v n) := by
  intro x
  have hword : (mixWord t u v n x)[t] ^^^ rotl ((mixWord t u v n x)[u] + (mixWord t u v n x)[v]) n = x[t] := by
    rw [mixWord_getElem_self, mixWord_getElem_of_ne hu, mixWord_getElem_of_ne hv, BitVec.xor_assoc,
      BitVec.xor_self, BitVec.xor_zero]
  calc mixWord t u v n (mixWord t u v n x) = (mixWord t u v n x).set t x[t] := by rw [mixWord, hword]
    _ = x := by simp [mixWord]

@[simp] theorem rotl_zero (n : Nat) : rotl 0#32 n = 0#32 := by simp [rotl]

/-- An update whose two other words are zero changes nothing. -/
theorem mixWord_of_zero {u v : Fin 16} {x : Matrix} (hu : x[u] = 0) (hv : x[v] = 0) (t : Fin 16) (n : Nat) :
    mixWord t u v n x = x := by
  have hword : x[t] ^^^ rotl (x[u] + x[v]) n = x[t] := by simp [hu, hv]
  rw [mixWord, hword]
  exact Vector.set_getElem_self _

/-! ## The quarter-round (R128) -/

/-- Zeros at the four positions stay. -/
theorem quarterRound_of_zero {x : Matrix} {a b c d : Fin 16} (ha : x[a] = 0) (hb : x[b] = 0) (hc : x[c] = 0)
    (hd : x[d] = 0) : quarterRound x a b c d = x := by
  rw [quarterRound_eq, mixWord_of_zero ha hd, mixWord_of_zero hb ha, mixWord_of_zero hc hb, mixWord_of_zero hd hc]

/-- The words at the other positions stay. -/
theorem quarterRound_getElem_of_ne (x : Matrix) {a b c d i : Fin 16} (ha : i ≠ a) (hb : i ≠ b) (hc : i ≠ c)
    (hd : i ≠ d) : (quarterRound x a b c d)[i] = x[i] := by
  rw [quarterRound_eq, mixWord_getElem_of_ne ha, mixWord_getElem_of_ne hd, mixWord_getElem_of_ne hc,
    mixWord_getElem_of_ne hb]

section
variable {a b c d : Fin 16} (hab : a ≠ b) (hac : a ≠ c) (had : a ≠ d) (hbc : b ≠ c) (hbd : b ≠ d) (hcd : c ≠ d)
include hab hac had hbc hbd hcd

/-- On distinct positions each update is its own inverse. -/
theorem quarterRound_bijective : Function.Bijective fun x : Matrix => quarterRound x a b c d := by
  rw [quarterRound_eq_comp]
  exact (mixWord_involutive had.symm hac.symm 18).bijective.comp
    ((mixWord_involutive hcd hbd 13).bijective.comp
      ((mixWord_involutive hbc hac 9).bijective.comp (mixWord_involutive hab hbd.symm 7).bijective))

/-- The four words after the quarter-round, each by the words updated before it (R127). -/
theorem quarterRound_words (x : Matrix) :
    let y := quarterRound x a b c d
    y[b] = x[b] ^^^ rotl (x[a] + x[d]) 7 ∧ y[c] = x[c] ^^^ rotl (y[b] + x[a]) 9 ∧
      y[d] = x[d] ^^^ rotl (y[c] + y[b]) 13 ∧ y[a] = x[a] ^^^ rotl (y[d] + y[c]) 18 := by
  simp only [quarterRound_eq, mixWord_getElem_self, mixWord_getElem_of_ne, ne_eq, hab, hac, had, hbc, hbd, hcd,
    hab.symm, hac.symm, had.symm, hbc.symm, hbd.symm, hcd.symm, not_false_eq_true, and_self]

/-- The published example: (1, 0, 0, 0). -/
theorem quarterRound_of_one {x : Matrix} (ha : x[a] = 1) (hb : x[b] = 0) (hc : x[c] = 0) (hd : x[d] = 0) :
    (quarterRound x a b c d)[a] = 0x08008145 ∧ (quarterRound x a b c d)[b] = 0x00000080 ∧
      (quarterRound x a b c d)[c] = 0x00010200 ∧ (quarterRound x a b c d)[d] = 0x20500000 := by
  obtain ⟨yb, yc, yd, ya⟩ := quarterRound_words hab hac had hbc hbd hcd x
  have hyb : (quarterRound x a b c d)[b] = 0x00000080 := by rw [yb, ha, hb, hd]; decide
  have hyc : (quarterRound x a b c d)[c] = 0x00010200 := by rw [yc, hyb, ha, hc]; decide
  have hyd : (quarterRound x a b c d)[d] = 0x20500000 := by rw [yd, hyc, hyb, hd]; decide
  have hya : (quarterRound x a b c d)[a] = 0x08008145 := by rw [ya, hyd, hyc, ha]; decide
  exact ⟨hya, hyb, hyc, hyd⟩

end

/-- Settles O28, from the four updates. -/
theorem quarterRoundIsABijection : Obligations.QuarterRoundIsABijection := by
  intro a b c d hab hac had hbc hbd hcd
  exact ⟨fun _ => quarterRound_of_zero, fun x _ => quarterRound_getElem_of_ne x,
    quarterRound_bijective hab hac had hbc hbd hcd, fun _ => quarterRound_of_one hab hac had hbc hbd hcd⟩

/-! ## The rounds and the permutation (R129 to R133) -/

/-- The quarter-round at four given positions, whose distinctness `decide` settles. -/
theorem quarterRound_bijective_of_nodup (a b c d : Fin 16) (h : [a, b, c, d].Nodup) :
    Function.Bijective fun x : Matrix => quarterRound x a b c d := by
  simp only [List.nodup_cons, List.mem_cons, List.not_mem_nil, or_false, not_or] at h
  obtain ⟨⟨hab, hac, had⟩, ⟨hbc, hbd⟩, hcd, -⟩ := h
  exact quarterRound_bijective hab hac had hbc hbd hcd

theorem columnRound_bijective : Function.Bijective columnRound :=
  (quarterRound_bijective_of_nodup 15 3 7 11 (by decide)).comp
    ((quarterRound_bijective_of_nodup 10 14 2 6 (by decide)).comp
      ((quarterRound_bijective_of_nodup 5 9 13 1 (by decide)).comp
        (quarterRound_bijective_of_nodup 0 4 8 12 (by decide))))

theorem rowRound_bijective : Function.Bijective rowRound :=
  (quarterRound_bijective_of_nodup 15 12 13 14 (by decide)).comp
    ((quarterRound_bijective_of_nodup 10 11 8 9 (by decide)).comp
      ((quarterRound_bijective_of_nodup 5 6 7 4 (by decide)).comp
        (quarterRound_bijective_of_nodup 0 1 2 3 (by decide))))

theorem doubleRound_bijective : Function.Bijective doubleRound := rowRound_bijective.comp columnRound_bijective

/-- A quarter-round keeps the zero matrix, on any positions. -/
theorem quarterRound_zeroMatrix (a b c d : Fin 16) :
    quarterRound (Vector.replicate 16 0) a b c d = Vector.replicate 16 0 := by
  apply quarterRound_of_zero <;> simp

theorem doubleRound_zeroMatrix : Function.IsFixedPt doubleRound (Vector.replicate 16 0) := by
  simp only [Function.IsFixedPt, doubleRound, columnRound, rowRound, quarterRound_zeroMatrix]

theorem doubleRounds_eq_iterate (n : Nat) (x : Matrix) : doubleRounds n x = doubleRound^[n] x := by
  induction n generalizing x with
  | zero => rfl
  | succ n ih => rw [doubleRounds_succ, ih, Function.iterate_succ_apply]

theorem perm20_eq (x : Matrix) : perm20 x = doubleRounds 10 x := by
  unfold perm20
  rfl

theorem perm20_eq_iterate : perm20 = doubleRound^[10] :=
  funext fun x => (perm20_eq x).trans (doubleRounds_eq_iterate 10 x)

/-- Settles O29: what holds of the double round holds of its tenth iterate. -/
theorem permutationIsABijection : Obligations.PermutationIsABijection := by
  rw [Obligations.PermutationIsABijection, perm20_eq_iterate]
  exact ⟨fun _ => rfl, doubleRound_bijective.iterate 10, doubleRound_zeroMatrix.iterate 10⟩

/-! ## The words of a subkey (R136) -/

/-- Word j of words one after another is the j-th of them (R9). -/
theorem w32_leWords (ws : List Word) (j : Nat) (h : j < ws.length) : w32 (leWords ws) j = ws[j] := by
  induction ws generalizing j with
  | nil => cases h
  | cons w ws ih =>
    cases j with
    | zero =>
      have hbytes : (leWords (w :: ws)).take 4 = (leBytes 4 w.toNat).toList.take 4 :=
        List.take_append_of_le_length (by simp)
      calc w32 (leWords (w :: ws)) 0 = w32 (leBytes 4 w.toNat).toList 0 := by
            simp only [w32, Nat.mul_zero, List.drop_zero, hbytes]
        _ = w := w32_leBytes w
    | succ j =>
      have hbytes : (leWords (w :: ws)).drop (4 * (j + 1)) = (leWords ws).drop (4 * j) := by
        rw [leWords_cons, Nat.mul_add, Nat.add_comm, ← List.drop_drop, List.drop_left' (by simp)]
      calc w32 (leWords (w :: ws)) (j + 1) = w32 (leWords ws) j := by rw [w32, w32, hbytes]
        _ = (w :: ws)[j + 1] := ih j (Nat.lt_of_succ_lt_succ h)

/-- The positions HSalsa20 reads, in their order (R136). -/
def subkeyPositions : Vector (Fin 16) 8 := #v[0, 5, 10, 15, 6, 7, 8, 9]

/-- The words of a matrix at those positions. -/
theorem subkeyPositions_map_toList (y : Matrix) :
    (subkeyPositions.map fun p => y[p]).toList = [y[0], y[5], y[10], y[15], y[6], y[7], y[8], y[9]] := by
  simp [subkeyPositions]

/-- HSalsa20 is the permuted words at those positions, one after another. -/
theorem hsalsa20_toList (K : Bytes 32) (N : Bytes 16) :
    (hsalsa20 K N).toList = leWords (subkeyPositions.map fun p => (perm20 (salsaInit K N))[p]).toList := by
  rw [subkeyPositions_map_toList, hsalsa20, arxCore_false]
  exact bytesOfList_toList (leWords_length _)

/-- Settles O30: word j of the serialization is the word at the j-th position. -/
theorem subkeyIsEightPermutedWords : Obligations.SubkeyIsEightPermutedWords := by
  intro K N j
  rw [hsalsa20_toList, w32_leWords _ _ (by simp), Vector.getElem_toList, Vector.getElem_map]
  rfl

end Sys2Proof.Machine
end

section
/-! SUPPORT and proofs of the keystream family (spec/42_keystream.md): the input words of a block (R146), its words with
feedforward (R147), the keystream byte by byte (R148, R149) and the bytes a cursor gives KS_OTK and KS_XOR (R162). -/

namespace Sys2Proof.Machine

/-! ## The words of a string (R9) -/

/-- A word inside the first of two strings. -/
theorem w32_append_left {a b : List Byte} {j : Nat} (h : 4 * j + 4 ≤ a.length) : w32 (a ++ b) j = w32 a j := by
  rw [w32, w32, List.drop_append_of_le_length (by omega), List.take_append_of_le_length (by simp; omega)]

/-- A word past the first of two strings, which is k words long. -/
theorem w32_append_right {a b : List Byte} {k : Nat} (h : a.length = 4 * k) (j : Nat) :
    w32 (a ++ b) (k + j) = w32 b j := by
  rw [w32, w32, Nat.mul_add, ← List.drop_drop, List.drop_left' h]

/-- Dropping n bytes is a division of the integer. -/
theorem le_drop (l : List Byte) (n : Nat) : le (l.drop n) = le l / 2 ^ (8 * n) := by
  induction n generalizing l with
  | zero => simp
  | succ n ih =>
    cases l with
    | nil => simp
    | cons b t =>
      have hb := b.isLt
      have htail : (b.toNat + 256 * le t) / 2 ^ 8 = le t := by omega
      rw [List.drop_succ_cons, ih, le_cons, Nat.mul_succ, Nat.add_comm _ 8, Nat.pow_add, ← Nat.div_div_eq_div_mul, htail]

/-- Keeping n bytes is a remainder of the integer. -/
theorem le_take (l : List Byte) (n : Nat) : le (l.take n) = le l % 2 ^ (8 * n) := by
  induction n generalizing l with
  | zero => simp [Nat.mod_one]
  | succ n ih =>
    cases l with
    | nil => simp
    | cons b t =>
      have hb := b.isLt
      have hhead : (b.toNat + 256 * le t) % 2 ^ 8 = b.toNat := by omega
      have htail : (b.toNat + 256 * le t) / 2 ^ 8 = le t := by omega
      rw [List.take_succ_cons, le_cons, ih, le_cons, Nat.mul_succ, Nat.add_comm _ 8, Nat.pow_add, Nat.mod_mul, hhead,
        htail]

/-- Word j of a string is what its integer holds at bits 32j+31:32j. -/
theorem w32_eq_ofNat_le (l : List Byte) (j : Nat) : w32 l j = BitVec.ofNat 32 (le l / 2 ^ (32 * j)) := by
  apply BitVec.eq_of_toNat_eq
  rw [w32, le_take, le_drop, BitVec.toNat_ofNat, BitVec.toNat_ofNat, Nat.mod_mod, ← Nat.mul_assoc]

/-! ## The input of a block (R146, R151) -/

/-- The 16 bytes a block puts at positions 6 to 9: the nonce and then the counter. -/
theorem blockInit_eq (K : Bytes 32) (N : Bytes 8) (ctr : Nat) :
    ∃ M : Bytes 16, blockInit K N ctr = salsaInit K M ∧ M.toList = N.toList ++ (leBytes 8 ctr).toList :=
  ⟨_, rfl, bytesOfList_toList (by simp)⟩

/-- The words of a counter, low word first. -/
theorem w32_counter {ctr : Nat} (h : ctr < 2 ^ 64) (j : Nat) :
    w32 (leBytes 8 ctr).toList j = BitVec.ofNat 32 (ctr / 2 ^ (32 * j)) := by
  rw [w32_eq_ofNat_le, le_leBytes_of_lt h]

/-- The input matrix of a block: HSalsa20's, its four input words the nonce's two and the counter's two. -/
theorem blockInit_layout (K : Bytes 32) (N : Bytes 8) {ctr : Nat} (h : ctr < 2 ^ 64) :
    blockInit K N ctr = #v[
      0x61707865, w32 K.toList 0, w32 K.toList 1, w32 K.toList 2,
      w32 K.toList 3, 0x3320646e, w32 N.toList 0, w32 N.toList 1,
      BitVec.ofNat 32 (ctr % 2 ^ 32), BitVec.ofNat 32 (ctr / 2 ^ 32), 0x79622d32, w32 K.toList 4,
      w32 K.toList 5, w32 K.toList 6, w32 K.toList 7, 0x6b206574] := by
  obtain ⟨M, hinit, hM⟩ := blockInit_eq K N ctr
  have hN : N.toList.length = 4 * 2 := by simp
  have h6 : w32 M.toList 0 = w32 N.toList 0 := by rw [hM, w32_append_left (by omega)]
  have h7 : w32 M.toList 1 = w32 N.toList 1 := by rw [hM, w32_append_left (by omega)]
  have h8 : w32 M.toList 2 = BitVec.ofNat 32 (ctr % 2 ^ 32) := by
    rw [hM, w32_append_right hN 0, w32_counter h]
    simp [← BitVec.toNat_inj]
  have h9 : w32 M.toList 3 = BitVec.ofNat 32 (ctr / 2 ^ 32) := by
    rw [hM, w32_append_right hN 1, w32_counter h]
  rw [hinit, salsaInit, h6, h7, h8, h9]

/-- Settles O31: the layout, and its words 8 and 9 for the counter 2^32. -/
theorem blockInputLayout : Obligations.BlockInputLayout := by
  refine ⟨fun K N ctr h => blockInit_layout K N h, fun K N => ?_⟩
  rw [blockInit_layout K N (by decide)]
  exact ⟨rfl, rfl⟩

/-! ## The words of a block (R147) -/

/-- A block is the sums of the permuted words and the input words, one after another. -/
theorem salsaBlock_toList (K : Bytes 32) (N : Bytes 8) (ctr : Nat) :
    (salsaBlock K N ctr).toList =
      leWords (Vector.zipWith (· + ·) (perm20 (blockInit K N ctr)) (blockInit K N ctr)).toList := by
  rw [salsaBlock, arxCore_true]
  exact bytesOfList_toList (by simp)

/-- Settles O32: word i of the serialization is the i-th sum. -/
theorem blockWordsAreFedForward : Obligations.BlockWordsAreFedForward := by
  intro K N ctr i
  rw [salsaBlock_toList, w32_leWords _ _ (by simp), Vector.getElem_toList, Vector.getElem_zipWith]
  rfl

/-! ## The keystream byte by byte (R148, R149) -/

/-- The byte at absolute offset i of the keystream (R148). -/
def streamByte (K : Bytes 32) (N : Bytes 8) (i : Nat) : Byte :=
  (salsaBlock K N (i / 64))[i % 64]'(Nat.mod_lt _ (by decide))

/-- The byte at an offset given by its block and its place there. -/
theorem streamByte_block (K : Bytes 32) (N : Bytes 8) (ctr : Nat) {i : Nat} (h : i < 64) :
    streamByte K N (64 * ctr + i) = (salsaBlock K N ctr)[i] := by
  have hdiv : (64 * ctr + i) / 64 = ctr := by omega
  have hmod : (64 * ctr + i) % 64 = i := by omega
  simp only [streamByte, hdiv, hmod]

/-- The blocks from counter ctr on hold the keystream from offset 64·ctr on. -/
theorem salsaBlocks_getElem? (K : Bytes 32) (N : Bytes 8) (ctr : Nat) {count i : Nat} (h : i < 64 * count) :
    (salsaBlocks K N ctr count)[i]? = some (streamByte K N (64 * ctr + i)) := by
  induction count generalizing ctr i with
  | zero => omega
  | succ count ih =>
    rw [salsaBlocks_succ]
    by_cases hfirst : i < 64
    · rw [List.getElem?_append_left (by simpa using hfirst), streamByte_block K N ctr hfirst]
      simp [hfirst]
    · have hoff : 64 * (ctr + 1) + (i - 64) = 64 * ctr + i := by omega
      rw [List.getElem?_append_right (by simpa using hfirst), Vector.length_toList, ih (ctr + 1) (by omega), hoff]

/-- Byte j of a keystream from offset off on. -/
theorem keystream_getElem? (K : Bytes 32) (N : Bytes 8) (off : Nat) {n j : Nat} (h : j < n) :
    (keystream K N off n)[j]? = some (streamByte K N (off + j)) := by
  have hoff : 64 * (off / 64) + (off % 64 + j) = off + j := by omega
  rw [keystream, List.getElem?_take_of_lt h, List.getElem?_drop, salsaBlocks_getElem? K N _ (by omega), hoff]

/-- Settles O33, by the byte of the concatenated blocks at each offset. -/
theorem keystreamByteAtItsOffset : Obligations.KeystreamByteAtItsOffset :=
  fun K N off n => ⟨keystream_length K N off n, fun _ hj => keystream_getElem? K N off hj⟩

/-! ## The cursor's commands (R155 to R157, R162) -/

/-- With a valid cursor that does not run out, KS_OTK's pseudocode answers. -/
theorem ksOtkBody_of_valid {snap : Operands} (live : Operands) (hcur : snap.cursor.cur = true)
    (hroom : ¬ snap.runsOut 32) :
    ksOtkBody snap live = .ok { live with
      otk := bytesOfList 32 (snap.cursor.emit 32)
      cursor := { live.cursor with off := snap.cursor.off + 32 } } := by
  rw [← exhausted_iff] at hroom
  simp [ksOtkBody, hcur, hroom]

/-- With LEN in range and a valid cursor that does not run out, KS_XOR's pseudocode answers. -/
theorem ksXorBody_of_valid {cfg : Params} {snap : Operands} (live : Operands) (hlen : ¬ snap.overLong cfg)
    (hcur : snap.cursor.cur = true) (hroom : ¬ snap.runsOut snap.len.toNat) :
    ksXorBody cfg snap live = .ok { live with
      buf := live.buf.writeSlice 16 (xorBytes snap.message (snap.cursor.emit snap.length))
      cursor := { live.cursor with off := snap.cursor.off + BitVec.ofNat 64 snap.length } } := by
  rw [← tooLong_iff] at hlen
  rw [← exhausted_iff] at hroom
  simp [ksXorBody, hlen, hcur, Operands.length, hroom]

/-- The cursor KS_INIT starts (R155). -/
theorem runCommand_ksInit_cursor {s t : State} (h : s.runCommand .ksInit = .next t) :
    t.core.data.cursor.cur = true ∧ t.core.data.cursor.off = 0 := by
  obtain rfl := Host.Outcome.next.inj (h.symm.trans (runCommand_ok rfl))
  exact ⟨rfl, rfl⟩

/-- KS_OTK advances a valid cursor by 32 bytes (R156). -/
theorem runCommand_ksOtk_cursor {s t : State} (h : s.runCommand .ksOtk = .next t)
    (hcur : s.core.data.cursor.cur = true) (hroom : ¬ s.core.data.runsOut 32) :
    t.core.data.cursor = { s.core.data.cursor with off := s.core.data.cursor.off + 32 } := by
  obtain rfl := Host.Outcome.next.inj (h.symm.trans (runCommand_ok (ksOtkBody_of_valid _ hcur hroom)))
  rfl

/-- KS_XOR combines byte j of the message with the keystream byte at KS_OFF + j (R157). -/
theorem runCommand_ksXor_read {s t : State} (h : s.runCommand .ksXor = .next t)
    (hlen : ¬ s.core.data.overLong s.cfg) (hcur : s.core.data.cursor.cur = true)
    (hroom : ¬ s.core.data.runsOut s.core.data.len.toNat) {j : Nat} (hj : j < s.core.data.len.toNat) :
    t.core.data.buf.read (16 + j) = s.core.data.buf.read (16 + j) ^^^
      streamByte s.core.data.cursor.key s.core.data.cursor.nonce (s.core.data.cursor.off.toNat + j) := by
  obtain rfl := Host.Outcome.next.inj (h.symm.trans (runCommand_ok (ksXorBody_of_valid _ hlen hcur hroom)))
  have hemit : (s.core.data.cursor.emit s.core.data.length)[j]? = some _ := keystream_getElem? _ _ _ hj
  have hstream : j < (s.core.data.cursor.emit s.core.data.length).length := (List.getElem?_eq_some_iff.mp hemit).1
  have hmessage : j < s.core.data.message.length := by rwa [Operands.message_length]
  rw [State.completedWith_data, Memory.read_writeSlice_in _ _ _ j (by rw [xorBytes_length]; omega),
    xorBytes_getElem _ _ j hmessage hstream, (List.getElem?_eq_some_iff.mp hemit).2]
  simp only [Operands.message, Memory.slice_getElem]

/-- Settles O35: KS_INIT starts the cursor at offset 0 and KS_OTK leaves it at 32, where KS_XOR begins. -/
theorem firstDataByteIsKeystreamByte32 : Obligations.FirstDataByteIsKeystreamByte32 := by
  intro s s₁ r₁ s₂ r₂ s₃ hinit hkeep₁ hotk hkeep₂ hxor hpos hlen
  obtain ⟨hcur, hoff⟩ := runCommand_ksInit_cursor hinit
  have hcursor : r₂.core.data.cursor = { s₁.core.data.cursor with off := 32 } := by
    rw [hkeep₂, runCommand_ksOtk_cursor hotk (by rw [hkeep₁, hcur]) (by simp [Operands.runsOut, hkeep₁, hoff]),
      hkeep₁, hoff]
    rfl
  have hroom : ¬ r₂.core.data.runsOut r₂.core.data.len.toNat := by
    have hfits := r₂.core.data.len.isLt
    simp only [Operands.runsOut, hcursor, BitVec.reduceToNat]
    omega
  have hbyte := runCommand_ksXor_read hxor hlen (by rw [hcursor, hcur]) hroom hpos
  calc s₃.core.data.buf.read 16
      = r₂.core.data.buf.read 16 ^^^ streamByte s₁.core.data.cursor.key s₁.core.data.cursor.nonce 32 := by
        simpa [hcursor] using hbyte
    _ = _ := by rw [← streamByte_block _ _ 0 (by decide)]

end Sys2Proof.Machine
end

section
/-! SUPPORT and proofs of the MAC family (spec/43_poly1305.md): the bytes of block i of a message, and what the blocks
join to (R167). -/

namespace Sys2Proof.Machine

/-- The message cut from the front: consecutive pieces of 16 bytes join to the prefix they cover. -/
theorem flatten_pieces_eq_take (m : List Byte) (count : Nat) :
    ((List.range count).map fun i => (m.drop (16 * i)).take 16).flatten = m.take (16 * count) := by
  induction count with
  | zero => simp
  | succ count ih =>
    rw [List.range_succ, List.map_append, List.flatten_append, ih, Nat.mul_succ, List.take_add]
    simp

/-- The rounded-up number of blocks covers the whole message. -/
theorem polyBlocks_flatten (m : List Byte) : (polyBlocks m).flatten = m := by
  have hcover : m.length ≤ 16 * ((m.length + 15) / 16) := by omega
  rw [polyBlocks, flatten_pieces_eq_take, List.take_of_length_le hcover]

theorem polyBlocks_getElem (m : List Byte) (i : Nat) (h : i < (polyBlocks m).length) :
    (polyBlocks m)[i] = (m.drop (16 * i)).take 16 := by
  simp [polyBlocks]

theorem polyBlocks_getElem_length (m : List Byte) (i : Nat) (h : i < (polyBlocks m).length) :
    (polyBlocks m)[i].length = min 16 (m.length - 16 * i) := by
  rw [polyBlocks_getElem, List.length_take, List.length_drop]

/-- Settles O37: block i exists when a byte is left at 16i, and a block after it when more than 16 are. -/
theorem macBlocksPartitionTheMessage : Obligations.MacBlocksPartitionTheMessage := by
  intro m
  refine ⟨polyBlocks_flatten m, polyBlocks_length m, fun i h => ?_⟩
  have hlength := polyBlocks_getElem_length m i h
  have hleft : 16 * i < m.length := by rw [polyBlocks_length] at h; omega
  have hnext : i + 1 < (polyBlocks m).length → 16 * (i + 1) < m.length := by rw [polyBlocks_length]; omega
  exact ⟨polyBlocks_getElem m i h, by omega, by omega, by omega⟩

end Sys2Proof.Machine
end

section
/-! SUPPORT and proofs of the box family (spec/44_box.md): SEAL as the sequence of the primitive commands (R187), and
SEAL and OPEN as functions of their named inputs (R193). -/

namespace Sys2Proof.Machine

/-! ## SEAL's keystream in two parts (R150, R184) -/

/-- A keystream is its first m bytes and then the n bytes from m further on (R150). -/
theorem keystream_add (K : Bytes 32) (N : Bytes 8) (off m n : Nat) :
    keystream K N off (m + n) = keystream K N off m ++ keystream K N (off + m) n := by
  apply List.ext_getElem
  · simp
  · intro j hj _
    rw [keystream_length] at hj
    apply Option.some.inj
    rw [← List.getElem?_eq_getElem, ← List.getElem?_eq_getElem, keystream_getElem? K N off hj]
    by_cases hfirst : j < m
    · rw [List.getElem?_append_left (by simpa using hfirst), keystream_getElem? K N off hfirst]
    · have hoff : off + m + (j - m) = off + j := by omega
      rw [List.getElem?_append_right (by simpa using hfirst), keystream_length,
        keystream_getElem? K N _ (by omega), hoff]

/-- What KS_OTK emits from offset 0: SEAL's one-time key (R184 step 4). -/
theorem boxOtk_keystream (K : Bytes 32) (N : Bytes 8) (n : Nat) :
    boxOtk (keystream K N 0 (32 + n)) = bytesOfList 32 (keystream K N 0 32) := by
  rw [boxOtk, keystream_add, List.take_left' (keystream_length K N 0 32)]

/-- What KS_XOR combines with from offset 32: the rest of SEAL's keystream (R184 step 5). -/
theorem boxCipher_keystream (d : Operands) (K : Bytes 32) (N : Bytes 8) (n : Nat) :
    boxCipher d (keystream K N 0 (32 + n)) = xorBytes d.message (keystream K N 32 n) := by
  rw [boxCipher, keystream_add, List.drop_left' (keystream_length K N 0 32), Nat.zero_add]

/-! ## The outcomes of SEAL and OPEN -/

/-- Without LOW_ORDER's cause ShareSecret answers the X25519 result (R117). -/
theorem shareSecret_of_not_lowOrder {d : Operands} (h : ¬ d.lowOrder) :
    shareSecret d.sk d.pk d.ctrl.lochk = .ok d.sharedSecret :=
  if_neg h

/-- With LEN in range and no low-order rejection, SEAL's pseudocode answers the ciphertext and its tag (R184). -/
theorem sealBody_of_valid {cfg : Params} {snap : Operands} (live : Operands) (hlen : ¬ snap.overLong cfg)
    (hlow : ¬ snap.lowOrder) :
    sealBody cfg snap live =
      .ok ((live.withTag (poly1305 (boxOtk snap.boxStream) (boxCipher snap snap.boxStream))).withMessage
        (boxCipher snap snap.boxStream)) := by
  rw [← tooLong_iff] at hlen
  rw [sealBody, if_neg hlen, shareSecret_of_not_lowOrder hlow]
  rfl

/-- SEAL's outcome is fixed by what it reads: one error, or one tag and one string as long as the message, whatever
operands they are written to. -/
theorem sealBody_cases (cfg : Params) (snap : Operands) :
    (∃ e, e ≠ .ok ∧ ∀ live, sealBody cfg snap live = .error e) ∨
    (∃ tag c, c.length = snap.len.toNat ∧
      ∀ live, sealBody cfg snap live = .ok ((live.withTag tag).withMessage c)) := by
  cases hlen : snap.tooLong cfg with
  | true => exact .inl ⟨.invalidLength, by decide, fun live => by simp [sealBody, hlen]⟩
  | false =>
    cases hs : shareSecret snap.sk snap.pk snap.ctrl.lochk with
    | error e => exact .inl ⟨e, by simp [(shareSecret_error hs).1], fun live => by simp [sealBody, hlen, hs]⟩
    | ok s =>
      exact .inr ⟨_, _, boxCipher_boxKeystream_length snap s, fun live => by simp only [sealBody, hlen, hs]; rfl⟩

/-- OPEN's outcome is fixed by what it reads: one error, or one string as long as the message, whatever operands it is
written to. -/
theorem openBody_cases (cfg : Params) (snap : Operands) :
    (∃ e, e ≠ .ok ∧ ∀ live, openBody cfg snap live = .error e) ∨
    (∃ m, m.length = snap.len.toNat ∧ ∀ live, openBody cfg snap live = .ok (live.withMessage m)) := by
  cases hlen : snap.tooLong cfg with
  | true => exact .inl ⟨.invalidLength, by decide, fun live => by simp [openBody, hlen]⟩
  | false =>
    cases hs : shareSecret snap.sk snap.pk snap.ctrl.lochk with
    | error e => exact .inl ⟨e, by simp [(shareSecret_error hs).1], fun live => by simp [openBody, hlen, hs]⟩
    | ok s =>
      cases htag : ctEq16 (poly1305 (boxOtk (boxKeystream snap s)) snap.message) (bytesOfList 16 snap.tagSlot) with
      | false => exact .inl ⟨.authFailed, by decide, fun live => by simp [openBody, hlen, hs, htag]⟩
      | true =>
        exact .inr ⟨_, boxCipher_boxKeystream_length snap s, fun live => by simp [openBody, hlen, hs, htag]⟩

/-! ## SEAL as the primitive commands (R187) -/

/-- Two slice writes that do not overlap leave the same bytes in either order. -/
theorem Memory.read_writeSlice_comm (m : Memory) {i j : Nat} {bs cs : List Byte} (h : i + bs.length ≤ j) (a : Nat) :
    ((m.writeSlice j cs).writeSlice i bs).read a = ((m.writeSlice i bs).writeSlice j cs).read a := by
  simp only [Memory.read_writeSlice]
  by_cases hlow : i ≤ a ∧ a < i + bs.length
  · rw [if_pos hlow, if_pos hlow, if_neg (by omega)]
  · rw [if_neg hlow, if_neg hlow]

/-- A message just written is the message, where it is as long as LEN says (R62). -/
theorem Operands.message_withMessage {d : Operands} {bs : List Byte} (h : bs.length = d.len.toNat) :
    (d.withMessage bs).message = bs := by
  calc (d.withMessage bs).message = (d.buf.writeSlice 16 bs).slice 16 bs.length := by rw [h]; rfl
    _ = bs := Memory.slice_writeSlice _ _ _

/-- The first command of a list that runs to its end after a completion. -/
theorem runAll_cons_completedWith {i : Instr} {is : List Instr} {s t : State} {d : Operands}
    (h : State.runAll (i :: is) (s.completedWith d) = some t) :
    ∃ d', commandBody s.cfg i d d = .ok d' ∧ State.runAll is (s.completedWith d') = some t :=
  runAll_cons h

/-- The operands with the box key in SS (R182). -/
def Operands.withBoxKey (d : Operands) : Operands := { d with ss := boxKey d.sharedSecret d.ctrl.nacl }

/-- AGREE, and HKEY where NACL = 1, leave the box key in SS. -/
theorem runAll_boxKey {s t : State} {is : List Instr}
    (h : State.runAll (.agree :: (if s.core.data.ctrl.nacl then [.hkey] else []) ++ is) s = some t) :
    ¬ s.core.data.lowOrder ∧ State.runAll is (s.completedWith s.core.data.withBoxKey) = some t := by
  obtain ⟨d, hagree, h⟩ := runAll_cons h
  obtain ⟨hlow, rfl⟩ := agreeBody_ok hagree
  refine ⟨hlow, ?_⟩
  rw [Operands.withBoxKey]
  cases hnacl : s.core.data.ctrl.nacl with
  | false =>
    rw [hnacl] at h
    exact h
  | true =>
    rw [hnacl] at h
    obtain ⟨d, hhkey, h⟩ := runAll_cons_completedWith h
    obtain rfl := hkeyBody_ok hhkey
    exact h

/-- HSALSA, KS_INIT and KS_OTK derive the subkey from SS and leave the one-time key in OTK and the cursor at 32. -/
theorem runAll_keystream {s t : State} {d : Operands} {is : List Instr}
    (h : State.runAll (.hsalsa :: .ksInit :: .ksOtk :: is) (s.completedWith d) = some t) :
    ∃ k, k = hsalsa20 d.ss d.noncePrefix ∧ State.runAll is (s.completedWith { d with
      subkey := k, otk := bytesOfList 32 (keystream k d.nonceSuffix 0 32)
      cursor := { cur := true, key := k, nonce := d.nonceSuffix, off := 32 } }) = some t := by
  obtain ⟨d₁, hhsalsa, h⟩ := runAll_cons_completedWith h
  obtain rfl := hsalsaBody_ok hhsalsa
  obtain ⟨d₂, hksInit, h⟩ := runAll_cons_completedWith h
  obtain rfl := ksInitBody_ok hksInit
  obtain ⟨d₃, hksOtk, h⟩ := runAll_cons_completedWith h
  obtain ⟨-, -, rfl⟩ := ksOtkBody_ok hksOtk
  exact ⟨_, rfl, h⟩

/-- KS_XOR and POLY leave the message combined with the keystream in BUF, and then its tag under OTK. -/
theorem runAll_cipher {s t : State} {d : Operands} {c : List Byte}
    (hc : c = xorBytes d.message (d.cursor.emit d.length))
    (h : State.runAll [.ksXor, .poly] (s.completedWith d) = some t) :
    ¬ d.overLong s.cfg ∧ ∃ cursor, t = s.completedWith { d with
      cursor := cursor, buf := (d.buf.writeSlice 16 c).writeSlice 0 (poly1305 d.otk c).toList } := by
  obtain ⟨d₁, hksXor, h⟩ := runAll_cons_completedWith h
  obtain ⟨hlen, -, -, hd₁⟩ := ksXorBody_ok hksXor
  rw [← hc] at hd₁
  have hmessage : d₁.message = c := by
    rw [hd₁]
    exact Operands.message_withMessage (d := d) (by simp [hc, Cursor.emit, Operands.length])
  obtain ⟨d₂, hpoly, h⟩ := runAll_cons_completedWith h
  obtain ⟨-, rfl⟩ := polyBody_ok hpoly
  rw [hmessage, hd₁] at h
  exact ⟨hlen, _, (Option.some.inj h).symm⟩

/-- From the box key in SS, the other primitive commands write SEAL's ciphertext and then its tag; besides BUF they
write SUBKEY, OTK and the cursor. -/
theorem runAll_primitives {s t : State} {d : Operands}
    (h : State.runAll [.hsalsa, .ksInit, .ksOtk, .ksXor, .poly] (s.completedWith d.withBoxKey) = some t) :
    ¬ d.overLong s.cfg ∧ ∃ subkey otk cursor, t = s.completedWith { d.withBoxKey with
      subkey := subkey, otk := otk, cursor := cursor
      buf := (d.buf.writeSlice 16 (boxCipher d d.boxStream)).writeSlice 0
        (poly1305 (boxOtk d.boxStream) (boxCipher d d.boxStream)).toList } := by
  obtain ⟨k, hk, h⟩ := runAll_keystream h
  have hstream : d.boxStream = keystream k d.nonceSuffix 0 (32 + d.length) := by rw [hk]; rfl
  rw [hstream, boxOtk_keystream, boxCipher_keystream]
  obtain ⟨hlen, cursor, rfl⟩ := runAll_cipher rfl h
  exact ⟨hlen, _, _, _, rfl⟩

/-- Settles O41: the primitive commands compute SEAL's ciphertext and tag and write them in the other order, to places in
BUF that do not overlap. -/
theorem sealEqualsThePrimitiveCommands : Obligations.SealEqualsThePrimitiveCommands := by
  intro s t _ h
  obtain ⟨hlow, h⟩ := runAll_boxKey h
  obtain ⟨hlen, subkey, otk, cursor, rfl⟩ := runAll_primitives h
  exact ⟨_, runCommand_ok (sealBody_of_valid _ hlen hlow), rfl, Memory.read_writeSlice_comm _ (by simp), rfl⟩

/-! ## SEAL and OPEN as functions of their inputs (R193) -/

/-- Buffers that hold the same bytes at the places of a slice give the same slice. -/
theorem Memory.slice_congr {m m' : Memory} {start n : Nat} (h : ∀ j < n, m.read (start + j) = m'.read (start + j)) :
    m.slice start n = m'.slice start n :=
  List.map_congr_left fun j hj => h j (List.mem_range.mp hj)

/-- Two sets of operands agree on all that SEAL reads, which is all that OPEN reads beside the tag slot (R193). -/
structure Operands.SameBoxInputs (d d' : Operands) : Prop where
  sk : d.sk = d'.sk
  pk : d.pk = d'.pk
  nonce : d.nonce = d'.nonce
  len : d.len = d'.len
  lochk : d.ctrl.lochk = d'.ctrl.lochk
  nacl : d.ctrl.nacl = d'.ctrl.nacl
  message : d.message = d'.message

namespace Operands.SameBoxInputs

variable {d d' : Operands}

theorem tooLong (h : d.SameBoxInputs d') (cfg : Params) : d.tooLong cfg = d'.tooLong cfg := by
  rw [Operands.tooLong, Operands.tooLong, Operands.length, Operands.length, h.len]

theorem boxKeystream (h : d.SameBoxInputs d') (s : Bytes 32) : boxKeystream d s = boxKeystream d' s := by
  simp only [Machine.boxKeystream, Operands.noncePrefix, Operands.nonceSuffix, Operands.length, h.nonce, h.len,
    h.nacl]

theorem boxCipher (h : d.SameBoxInputs d') (z : List Byte) : boxCipher d z = boxCipher d' z := by
  rw [Machine.boxCipher, Machine.boxCipher, h.message]

/-- SEAL's pseudocode reads nothing else. -/
theorem sealBody (h : d.SameBoxInputs d') (cfg : Params) (live : Operands) :
    sealBody cfg d live = sealBody cfg d' live := by
  simp only [Machine.sealBody, h.tooLong, h.sk, h.pk, h.lochk, h.boxKeystream, h.boxCipher]

/-- OPEN's pseudocode reads the tag slot and nothing else. -/
theorem openBody (h : d.SameBoxInputs d') (htag : d.tagSlot = d'.tagSlot) (cfg : Params) (live : Operands) :
    openBody cfg d live = openBody cfg d' live := by
  simp only [Machine.openBody, h.tooLong, h.sk, h.pk, h.lochk, h.boxKeystream, h.boxCipher, h.message, htag]

end Operands.SameBoxInputs

/-- Slice writes of one string leave the same bytes where it covers, and keep what was the same before it. -/
theorem Memory.read_writeSlice_congr {m m' : Memory} {start : Nat} (bs : List Byte) {a : Nat}
    (h : a < start ∨ start + bs.length ≤ a → m.read a = m'.read a) :
    (m.writeSlice start bs).read a = (m'.writeSlice start bs).read a := by
  rw [Memory.read_writeSlice, Memory.read_writeSlice]
  split
  · rfl
  · exact h (by omega)

/-- A tag and a message leave the same bytes from the tag slot to the end of the message, whatever was there. -/
theorem Operands.read_tagged (live live' : Operands) (tag : Bytes 16) (c : List Byte) {a : Nat}
    (ha : a < 16 + c.length) :
    ((live.withTag tag).withMessage c).buf.read a = ((live'.withTag tag).withMessage c).buf.read a :=
  Memory.read_writeSlice_congr c fun hout =>
    Memory.read_writeSlice_congr tag.toList fun htag => by simp only [Vector.length_toList] at htag; omega

/-- SEAL of the same inputs: the same result code, and where it is OK the same tag slot and message (R193). -/
theorem sealBox_congr {s s' : State} (hcfg : s.cfg = s'.cfg)
    (h : s.core.snapshot.SameBoxInputs s'.core.snapshot) {t t' : State} (ht : exec .sealBox s = .next t)
    (ht' : exec .sealBox s' = .next t') :
    t.core.err = t'.core.err ∧
      (t.core.err = .ok → ∀ a < 16 + s.core.snapshot.len.toNat,
        t.core.data.buf.read a = t'.core.data.buf.read a) := by
  obtain rfl := exec_next ht
  obtain rfl := exec_next ht'
  simp only [commandBody, ← hcfg, ← h.sealBody]
  rcases sealBody_cases s.cfg s.core.snapshot with ⟨e, he, hbody⟩ | ⟨tag, c, hc, hbody⟩ <;> simp only [hbody]
  · exact ⟨rfl, fun hok => absurd hok he⟩
  · exact ⟨rfl, fun _ a ha => Operands.read_tagged _ _ tag c (by omega)⟩

/-- OPEN of the same inputs and tag slot: the same result code, and where it is OK the same message, and the same tag
slot where both buffers held the same there (R193). -/
theorem openBox_congr {s s' : State} (hcfg : s.cfg = s'.cfg)
    (h : s.core.snapshot.SameBoxInputs s'.core.snapshot) (htag : s.core.snapshot.tagSlot = s'.core.snapshot.tagSlot)
    {u u' : State} (hu : exec .openBox s = .next u) (hu' : exec .openBox s' = .next u') :
    u.core.err = u'.core.err ∧
      (u.core.err = .ok →
        (∀ j < s.core.snapshot.len.toNat, u.core.data.buf.read (16 + j) = u'.core.data.buf.read (16 + j)) ∧
        ∀ a < 16, s.core.data.buf.read a = s'.core.data.buf.read a →
          u.core.data.buf.read a = u'.core.data.buf.read a) := by
  obtain rfl := exec_next hu
  obtain rfl := exec_next hu'
  simp only [commandBody, ← hcfg, ← h.openBody htag]
  rcases openBody_cases s.cfg s.core.snapshot with ⟨e, he, hbody⟩ | ⟨m, hm, hbody⟩ <;> simp only [hbody]
  · exact ⟨rfl, fun hok => absurd hok he⟩
  · exact ⟨rfl, fun _ => ⟨fun j hj => Memory.read_writeSlice_congr m (by omega),
      fun a _ hsame => Memory.read_writeSlice_congr m fun _ => hsame⟩⟩

/-- Settles O44: the snapshots agree on every input, and OPEN keeps the tag slot of the data. -/
theorem boxCommandsAreFunctionsOfTheirInputs : Obligations.BoxCommandsAreFunctionsOfTheirInputs := by
  intro s s' t t' u u' hcfg hsk hpk hnonce hlen hlochk hnacl hmessage ht ht' hu hu'
  have hinputs : s.core.snapshot.SameBoxInputs s'.core.snapshot :=
    ⟨hsk, hpk, hnonce, hlen, hlochk, hnacl, by
      rw [Operands.message, Operands.message, Operands.length, Operands.length, ← hlen]
      exact Memory.slice_congr hmessage⟩
  refine ⟨sealBox_congr hcfg hinputs ht ht', fun hslot => ?_⟩
  have htag : s.core.snapshot.tagSlot = s'.core.snapshot.tagSlot :=
    Memory.slice_congr fun j hj => by simpa using hslot j hj
  obtain ⟨herr, hok⟩ := openBox_congr hcfg hinputs htag hu hu'
  refine ⟨herr, fun h => ?_⟩
  obtain ⟨hread, hkept⟩ := hok h
  exact ⟨hread, fun hbuf hbuf' a ha => hkept a ha (by rw [← hbuf, ← hbuf', hslot a ha])⟩

end Sys2Proof.Machine
end

section
/-! SUPPORT and proofs of the control family (spec/45_control.md): what NOP (R201) and CLEAR (R203) leave. -/

namespace Sys2Proof.Machine

/-- A command whose pseudocode answers new operands completes with them and no error (R92). -/
theorem exec_of_commandBody_ok {i : Instr} {s : State} {d : Operands}
    (h : commandBody s.cfg i s.core.snapshot s.core.data = .ok d) : exec i s = .next (s.completedWith d) := by
  rw [exec_eq_finish, h, State.finish_ok]

/-- CLEAR answers the reset operands with CTRL, LEN and BUF kept (R202). The number of the reset does not matter: its
draw shows in BUF only (R235). -/
theorem clearBody_eq_reset (live : Operands) (draw : Nat) :
    clearBody live =
      .ok { Operands.reset draw with ctrl := live.ctrl, len := live.len, buf := live.buf } := rfl

/-- Settles O6: NOP's pseudocode answers the live operands as they are. -/
theorem nopChangesOnlyStatus : Obligations.NopChangesOnlyStatus := by
  intro s
  have hbody : commandBody s.cfg .nop s.core.snapshot s.core.data = .ok s.core.data := rfl
  exact exec_of_commandBody_ok hbody

/-- Settles O16: the zeros CLEAR writes are the reset values of R50. -/
theorem clearRestoresTheResetKeyState : Obligations.ClearRestoresTheResetKeyState := by
  intro s n
  have hbody : commandBody s.cfg .clear s.core.snapshot s.core.data = clearBody s.core.data := rfl
  exact exec_of_commandBody_ok (hbody.trans (clearBody_eq_reset s.core.data n))

end Sys2Proof.Machine
end

section
/-! SUPPORT and proofs of the exceptions family (spec/60_exceptions.md): the error each command's pseudocode raises, and
the order in which error conditions are reported (R214). -/

namespace Sys2Proof.Machine

/-! ## The tag comparison (R181) -/

/-- Bytes folded together with bitwise or give zero exactly where every one of them is zero. -/
theorem foldl_or_eq_zero_iff {ι : Type} (f : ι → Byte) (l : List ι) (d : Byte) :
    l.foldl (fun acc i => acc ||| f i) d = 0 ↔ d = 0 ∧ ∀ i ∈ l, f i = 0 := by
  induction l generalizing d with
  | nil => simp
  | cons i l ih =>
    rw [List.foldl_cons, ih, List.forall_mem_cons, ← and_assoc]
    exact and_congr_left' BitVec.or_eq_zero_iff

theorem ctEq16_iff (a b : Bytes 16) : ctEq16 a b = true ↔ a = b := by
  rw [ctEq16, beq_iff_eq, foldl_or_eq_zero_iff]
  constructor
  · rintro ⟨-, hxor⟩
    exact Vector.ext fun i hi => BitVec.xor_eq_zero_iff.1 (hxor ⟨i, hi⟩ (List.mem_finRange _))
  · rintro rfl
    exact ⟨rfl, fun _ _ => BitVec.xor_self⟩

/-- OPEN's comparison fails exactly under AUTH_FAILED's cause (R188, R210). -/
theorem ctEq16_tagSlot_iff (d : Operands) :
    ctEq16 (poly1305 (boxOtk (boxKeystream d d.sharedSecret)) d.message) (bytesOfList 16 d.tagSlot) = true ↔
      ¬ d.tagDiffers := by
  have htag : poly1305 (boxOtk (boxKeystream d d.sharedSecret)) d.message = d.recomputedTag := rfl
  have hslot : d.buf.slice 0 16 = (bytesOfList 16 d.tagSlot).toList :=
    (bytesOfList_toList d.tagSlot_length).symm
  rw [ctEq16_iff, htag, Operands.tagDiffers, hslot, not_not, Vector.toList_inj]

/-! ## The error each command's pseudocode raises -/

/-- AGREE's one error (R120). -/
theorem agreeBody_error {snap live : Operands} {e : ErrCode} (h : agreeBody snap live = .error e) :
    e = .lowOrder ∧ snap.lowOrder := by
  unfold agreeBody at h
  split at h
  · cases h
  · next hs =>
    cases h
    exact shareSecret_error hs

/-- KS_OTK's errors, in the order it tests them (R156). -/
theorem ksOtkBody_error {snap live : Operands} {e : ErrCode} (h : ksOtkBody snap live = .error e) :
    (e = .noCursor ∧ snap.cursor.cur = false) ∨
    (e = .ksExhausted ∧ snap.cursor.cur = true ∧ snap.runsOut 32) := by
  unfold ksOtkBody at h
  split at h
  · next hcur => cases h; exact .inl ⟨rfl, hcur⟩
  · next hcur =>
    split at h
    · next hout => cases h; exact .inr ⟨rfl, by simpa using hcur, (exhausted_iff snap 32).1 hout⟩
    · cases h

/-- KS_XOR's errors, in the order it tests them (R157). -/
theorem ksXorBody_error {cfg : Params} {snap live : Operands} {e : ErrCode}
    (h : ksXorBody cfg snap live = .error e) :
    (e = .invalidLength ∧ snap.overLong cfg) ∨
    (e = .noCursor ∧ ¬ snap.overLong cfg ∧ snap.cursor.cur = false) ∨
    (e = .ksExhausted ∧ ¬ snap.overLong cfg ∧ snap.cursor.cur = true ∧ snap.runsOut snap.len.toNat) := by
  unfold ksXorBody at h
  split at h
  · next hlong => cases h; exact .inl ⟨rfl, (tooLong_iff snap cfg).1 hlong⟩
  · next hfits =>
    have hlen : ¬ snap.overLong cfg := mt (tooLong_iff snap cfg).2 hfits
    split at h
    · next hcur => cases h; exact .inr (.inl ⟨rfl, hlen, hcur⟩)
    · next hcur =>
      split at h
      · next hout => cases h; exact .inr (.inr ⟨rfl, hlen, by simpa using hcur, (exhausted_iff snap _).1 hout⟩)
      · cases h

/-- POLY's one error (R172). -/
theorem polyBody_error {cfg : Params} {snap live : Operands} {e : ErrCode} (h : polyBody cfg snap live = .error e) :
    e = .invalidLength ∧ snap.overLong cfg := by
  unfold polyBody at h
  split at h
  · next hlen => cases h; exact ⟨rfl, (tooLong_iff snap cfg).1 hlen⟩
  · cases h

/-- SEAL's errors, in the order it tests them (R184). -/
theorem sealBody_error {cfg : Params} {snap live : Operands} {e : ErrCode} (h : sealBody cfg snap live = .error e) :
    (e = .invalidLength ∧ snap.overLong cfg) ∨ (e = .lowOrder ∧ ¬ snap.overLong cfg ∧ snap.lowOrder) := by
  unfold sealBody at h
  split at h
  · next hlong => cases h; exact .inl ⟨rfl, (tooLong_iff snap cfg).1 hlong⟩
  · next hfits =>
    have hlen : ¬ snap.overLong cfg := mt (tooLong_iff snap cfg).2 hfits
    split at h
    · next hs =>
      cases h
      obtain ⟨rfl, hlow⟩ := shareSecret_error hs
      exact .inr ⟨rfl, hlen, hlow⟩
    · cases h

/-- OPEN's errors, in the order it tests them (R188). -/
theorem openBody_error {cfg : Params} {snap live : Operands} {e : ErrCode} (h : openBody cfg snap live = .error e) :
    (e = .invalidLength ∧ snap.overLong cfg) ∨ (e = .lowOrder ∧ ¬ snap.overLong cfg ∧ snap.lowOrder) ∨
    (e = .authFailed ∧ ¬ snap.overLong cfg ∧ ¬ snap.lowOrder ∧ snap.tagDiffers) := by
  unfold openBody at h
  split at h
  · next hlong => cases h; exact .inl ⟨rfl, (tooLong_iff snap cfg).1 hlong⟩
  · next hfits =>
    have hlen : ¬ snap.overLong cfg := mt (tooLong_iff snap cfg).2 hfits
    split at h
    · next hs =>
      cases h
      obtain ⟨rfl, hlow⟩ := shareSecret_error hs
      exact .inr (.inl ⟨rfl, hlen, hlow⟩)
    · next hs =>
      obtain ⟨rfl, hlow⟩ := shareSecret_ok hs
      simp only at h
      split at h
      · cases h
      · next htag =>
        cases h
        exact .inr (.inr ⟨rfl, hlen, hlow, not_not.1 fun hsame => htag ((ctEq16_tagSlot_iff snap).2 hsame)⟩)

/-! ## The order of the error conditions (R214) -/

/-- R214 has the command `i` over the operands `d` report `e`: the condition of `e` holds, and none before it does. -/
def reportsFirst (cfg : Params) (i : Instr) (d : Operands) (e : ErrCode) : Prop :=
  errorHolds cfg i d e ∧ ∀ e' ∈ errorPriority.takeWhile (· ≠ e), ¬ errorHolds cfg i d e'

theorem errorHolds_illegalCmd (cfg : Params) (i : Instr) (d : Operands) : ¬ errorHolds cfg i d .illegalCmd := id

section
variable {cfg : Params} {i : Instr} {d : Operands}

theorem reportsFirst_invalidLength_iff :
    reportsFirst cfg i d .invalidLength ↔ errorHolds cfg i d .invalidLength := by
  simp [reportsFirst, errorPriority, errorHolds_illegalCmd]

theorem reportsFirst_noCursor_iff :
    reportsFirst cfg i d .noCursor ↔ errorHolds cfg i d .noCursor ∧ ¬ errorHolds cfg i d .invalidLength := by
  simp [reportsFirst, errorPriority, errorHolds_illegalCmd]

theorem reportsFirst_ksExhausted_iff :
    reportsFirst cfg i d .ksExhausted ↔
      errorHolds cfg i d .ksExhausted ∧ ¬ errorHolds cfg i d .invalidLength ∧ ¬ errorHolds cfg i d .noCursor := by
  simp [reportsFirst, errorPriority, errorHolds_illegalCmd]

theorem reportsFirst_lowOrder_iff :
    reportsFirst cfg i d .lowOrder ↔
      errorHolds cfg i d .lowOrder ∧ ¬ errorHolds cfg i d .invalidLength ∧ ¬ errorHolds cfg i d .noCursor ∧
        ¬ errorHolds cfg i d .ksExhausted := by
  simp [reportsFirst, errorPriority, errorHolds_illegalCmd]

theorem reportsFirst_authFailed_iff :
    reportsFirst cfg i d .authFailed ↔
      errorHolds cfg i d .authFailed ∧ ¬ errorHolds cfg i d .invalidLength ∧ ¬ errorHolds cfg i d .noCursor ∧
        ¬ errorHolds cfg i d .ksExhausted ∧ ¬ errorHolds cfg i d .lowOrder := by
  simp [reportsFirst, errorPriority, errorHolds_illegalCmd]

end

/-- The pseudocode tests its errors in the order of R214: the one it raises is the first whose condition holds. -/
theorem commandBody_error_reportsFirst {cfg : Params} {i : Instr} {snap live : Operands} {e : ErrCode}
    (h : commandBody cfg i snap live = .error e) : reportsFirst cfg i snap e := by
  cases i with
  | nop | hkey | hsalsa | ksInit | clear => cases h
  | agree =>
    obtain ⟨rfl, hlow⟩ := agreeBody_error h
    simp [reportsFirst_lowOrder_iff, errorHolds, hlow]
  | ksOtk =>
    rcases ksOtkBody_error h with ⟨rfl, hcur⟩ | ⟨rfl, hcur, hout⟩
    · simp [reportsFirst_noCursor_iff, errorHolds, hcur]
    · simp [reportsFirst_ksExhausted_iff, errorHolds, hcur, hout]
  | ksXor =>
    rcases ksXorBody_error h with ⟨rfl, hlen⟩ | ⟨rfl, hlen, hcur⟩ | ⟨rfl, hlen, hcur, hout⟩
    · simp [reportsFirst_invalidLength_iff, errorHolds, hlen]
    · simp [reportsFirst_noCursor_iff, errorHolds, hlen, hcur]
    · simp [reportsFirst_ksExhausted_iff, errorHolds, hlen, hcur, hout]
  | poly =>
    obtain ⟨rfl, hlen⟩ := polyBody_error h
    simp [reportsFirst_invalidLength_iff, errorHolds, hlen]
  | sealBox =>
    rcases sealBody_error h with ⟨rfl, hlen⟩ | ⟨rfl, hlen, hlow⟩
    · simp [reportsFirst_invalidLength_iff, errorHolds, hlen]
    · simp [reportsFirst_lowOrder_iff, errorHolds, hlen, hlow]
  | openBox =>
    rcases openBody_error h with ⟨rfl, hlen⟩ | ⟨rfl, hlen, hlow⟩ | ⟨rfl, hlen, hlow, htag⟩
    · simp [reportsFirst_invalidLength_iff, errorHolds, hlen]
    · simp [reportsFirst_lowOrder_iff, errorHolds, hlen, hlow]
    · simp [reportsFirst_authFailed_iff, errorHolds, hlen, hlow, htag]

/-- The pseudocode answers operands only where it has tested every error condition of the command (R210). -/
theorem commandBody_ok_not_errorHolds {cfg : Params} {i : Instr} {snap live d : Operands}
    (h : commandBody cfg i snap live = .ok d) (e : ErrCode) : ¬ errorHolds cfg i snap e := by
  cases i with
  | nop | hkey | hsalsa | ksInit | clear => cases e <;> simp [errorHolds]
  | agree =>
    obtain ⟨hlow, -⟩ := agreeBody_ok h
    cases e <;> simp [errorHolds, hlow]
  | ksOtk =>
    obtain ⟨hcur, hroom, -⟩ := ksOtkBody_ok h
    cases e <;> simp [errorHolds, hcur, hroom]
  | ksXor =>
    obtain ⟨hlen, hcur, hroom, -⟩ := ksXorBody_ok h
    cases e <;> simp [errorHolds, hlen, hcur, hroom]
  | poly =>
    obtain ⟨hlen, -⟩ := polyBody_ok h
    cases e <;> simp [errorHolds, hlen]
  | sealBox =>
    obtain ⟨hlen, hlow, -⟩ := sealBody_ok h
    cases e <;> simp [errorHolds, hlen, hlow]
  | openBox =>
    obtain ⟨hlen, hlow, _, rfl, heq, -⟩ := openBody_ok h
    have htag : ¬ snap.tagDiffers := (ctEq16_tagSlot_iff snap).1 heq
    cases e <;> simp [errorHolds, hlen, hlow, htag]

/-- Settles O18: an accepted illegal word completes with ILLEGAL_CMD, and a command with the outcome of its
pseudocode. -/
theorem firstErrorInPriorityIsReported : Obligations.FirstErrorInPriorityIsReported := by
  refine ⟨fun s w r hd => ⟨_, engineStep_illegal (s := s.accepted w) rfl hd, rfl⟩,
    fun i s => ⟨_, exec_eq_finish i s, ?_⟩⟩
  cases hbody : commandBody s.cfg i s.core.snapshot s.core.data with
  | ok d => exact .inl ⟨rfl, commandBody_ok_not_errorHolds hbody⟩
  | error e => exact .inr (commandBody_error_reportsFirst hbody)

end Sys2Proof.Machine
end

section
/-! SUPPORT and proofs of the hazards family (spec/70_reset_and_hazards.md): what BUSY does to a write (R241) and what a
legal read returns, busy (R49, R242) and idle (R22). -/

namespace Sys2Proof.Machine

/-! ## Writes while BUSY = 1 (R241) -/

/-- STATUS takes a write whether the CORE is busy or not (R26). -/
theorem writePort_status (c : CoreState) (v : Word) : c.writePort v .status = c.writeStatus v := by
  rw [CoreState.writePort, if_pos rfl]

/-- While BUSY = 1 every port but STATUS drops a write. -/
theorem writePort_of_busy {c : CoreState} {p : Port} (hbusy : c.busy = true) (hp : p ≠ .status) (v : Word) :
    c.writePort v p = c.dropWrite := by
  rcases writePort_cases c v p with ⟨hstatus, _⟩ | ⟨_, _, hdrop⟩ | ⟨_, hidle, _⟩
  · exact absurd hstatus hp
  · exact hdrop
  · exact absurd (hidle.symm.trans hbusy) Bool.false_ne_true

/-- Settles O50: 0x00C is the only offset of STATUS, and every other port drops the write. -/
theorem writesWhileBusyAreDropped : Obligations.WritesWhileBusyAreDropped := by
  intro c cfg a v hbusy h4 hlt
  rw [transact_memWrite c v h4 hlt]
  refine ⟨fun hne => ?_, fun heq => ?_⟩
  · rw [writePort_of_busy hbusy (portAt_status_iff.not.mpr hne), CoreState.dropWrite]
  · rw [portAt_status_iff.mpr heq, writePort_status]

/-! ## Which port a read shows while BUSY = 1 (R49, R242) -/

/-- A control register reads the same busy and idle. -/
theorem readPort_of_readable {p : Port} (hp : p.readableWhileBusy = true) (c : CoreState) (cfg : Params) :
    c.readPort cfg p = c.readIdle cfg p := by
  simp [CoreState.readPort, hp]

/-- While BUSY = 1 any port that is not a control register reads 0. -/
theorem readPort_of_busy {c : CoreState} {p : Port} (hbusy : c.busy = true) (hp : p.readableWhileBusy = false)
    (cfg : Params) : c.readPort cfg p = 0 := by
  simp [CoreState.readPort, hbusy, hp]

/-- The offsets of R49 are the only ones that are readable while BUSY = 1. -/
theorem portAt_not_readableWhileBusy {a : Nat} (h : a ∉ [0x000, 0x008, 0x00C, 0x014, 0x018]) :
    (portAt a).readableWhileBusy = false := by
  rcases portAt_cases a with ⟨_, hbuf⟩ | ⟨j, hbytes⟩ | hword | hreserved
  · rw [hbuf]; rfl
  · simp only [List.mem_cons, List.not_mem_nil, or_false] at hbytes
    rcases hbytes with hp | hp | hp | hp | hp | hp <;> rw [hp] <;> rfl
  · have hhidden : ∀ b ∈ [0x000, 0x008, 0x00C, 0x010, 0x014, 0x018, 0x020, 0x024],
        b ∉ [0x000, 0x008, 0x00C, 0x014, 0x018] → (portAt b).readableWhileBusy = false := by decide
    exact hhidden a hword h
  · rw [hreserved]; rfl

/-! ## The words of the register map (R22) -/

/-- BUFSZ's register is wide enough for BUF_BYTES in every configuration (R29). -/
theorem bufBytes_ofNat_toNat (cfg : Params) : (BitVec.ofNat 32 cfg.bufBytes).toNat = cfg.bufBytes := by
  rw [BitVec.toNat_ofNat, Nat.mod_eq_of_lt]
  have := cfg.bufExtraWords.isLt
  simp only [Params.bufBytes]
  omega

/-- The low half of KS_OFF (R30). -/
theorem extractLsb'_low_toNat (x : BitVec 64) : (x.extractLsb' 0 32).toNat = x.toNat % 2 ^ 32 := by
  rw [BitVec.extractLsb'_toNat, Nat.shiftRight_zero]

/-- The high half of KS_OFF (R30). -/
theorem extractLsb'_high_toNat (x : BitVec 64) : (x.extractLsb' 32 32).toNat = x.toNat / 2 ^ 32 := by
  rw [BitVec.extractLsb'_toNat, Nat.shiftRight_eq_div_pow]
  exact Nat.mod_eq_of_lt (by omega)

/-- A port that holds word o/4 of a byte array shows the array's bytes from the aligned index o on (R41, R61). -/
theorem wordShows_readIdle {c : CoreState} {cfg : Params} {p : Port} {n o a : Nat} (b : Bytes n)
    (hport : portAt a = p) (hread : c.readIdle cfg p = w32 b.toList (o / 4)) (ho : o % 4 = 0) (h : o + 4 ≤ n) :
    wordShows (c.readIdle cfg (portAt a)) b o := by
  have hword := wordShows_w32 b (o / 4) (by omega)
  rwa [Nat.mul_div_cancel' (Nat.dvd_of_mod_eq_zero ho), ← hread, ← hport] at hword

/-- The word of BUF read at an aligned byte offset shows the bytes from that offset on (R61). -/
theorem Memory.readWord_byte_of_aligned (m : Memory) {o k : Nat} (ho : o % 4 = 0) (hk : k < 4) :
    (m.readWord (o / 4)).extractLsb' (8 * k) 8 = m.read (o + k) := by
  rw [Memory.readWord_byte m (o / 4) k hk, Nat.mul_div_cancel' (Nat.dvd_of_mod_eq_zero ho)]

/-- CMD, SK and the reserved offsets read 0 (R23, R27, R34). -/
theorem readIdle_eq_zero (c : CoreState) (cfg : Params) {a : Nat}
    (h : a = 0x010 ∨ (0x040 ≤ a ∧ a < 0x060) ∨ a = 0x004 ∨ a = 0x01C ∨ (0x028 ≤ a ∧ a < 0x040) ∨
      a = 0x098 ∨ a = 0x09C ∨ (0x100 ≤ a ∧ a < 0x1000)) : c.readIdle cfg (portAt a) = 0 := by
  rcases h with hcmd | ⟨hlow, hhigh⟩ | hreserved
  · rw [portAt_cmd_iff.mpr hcmd, CoreState.readIdle]
  · rw [portAt_sk hlow hhigh, CoreState.readIdle]
  · have hport : portAt a = .reserved := portAt_reserved (by simp; omega)
    rw [hport, CoreState.readIdle]

/-- Settles O51: the control registers read the same busy and idle, any other port reads 0 while BUSY = 1, and idle
each offset reads its row of the register map. -/
theorem readsWhileBusyShowOnlyControl : Obligations.ReadsWhileBusyShowOnlyControl := by
  intro c cfg a h4 hlt
  obtain ⟨hid, hctrl, hstatus, -, hlen, hbufsz, hksoffLo, hksoffHi⟩ := portAt_word
  refine ⟨c.readPort cfg (portAt a), transact_memRead c h4 hlt, ?id, ?ctrl, ?status, ?len, ?bufsz,
    fun hbusy hother => readPort_of_busy hbusy (portAt_not_readableWhileBusy hother) cfg, fun hidle => ?idle⟩
  case id => rintro rfl; rw [hid, readPort_of_readable rfl, CoreState.readIdle, idWord]
  case ctrl =>
    rintro rfl
    rw [hctrl, readPort_of_readable rfl, CoreState.readIdle]
    exact Ctrl.shows_toWord c.data.ctrl
  case status =>
    rintro rfl
    rw [hstatus, readPort_of_readable rfl, CoreState.readIdle]
    exact statusShows_statusWord c
  case len => rintro rfl; rw [hlen, readPort_of_readable rfl, CoreState.readIdle]
  case bufsz => rintro rfl; rw [hbufsz, readPort_of_readable rfl, CoreState.readIdle, bufBytes_ofNat_toNat]
  case idle =>
    have hread : c.readPort cfg (portAt a) = c.readIdle cfg (portAt a) := CoreState.view_of_not_busy hidle cfg a
    rw [hread]
    refine ⟨?ksoffLo, ?ksoffHi,
      fun hlow hhigh => wordShows_readIdle c.data.pk (portAt_pk hlow hhigh) rfl (by omega) (by omega),
      fun hlow hhigh => wordShows_readIdle c.data.nonce (portAt_nonce hlow hhigh) rfl (by omega) (by omega),
      fun hlow hhigh => wordShows_readIdle c.data.ss (portAt_ss hlow hhigh) rfl (by omega) (by omega),
      fun hlow hhigh => wordShows_readIdle c.data.subkey (portAt_subkey hlow hhigh) rfl (by omega) (by omega),
      fun hlow hhigh => wordShows_readIdle c.data.otk (portAt_otk hlow hhigh) rfl (by omega) (by omega),
      ?buf, readIdle_eq_zero c cfg⟩
    case ksoffLo => rintro rfl; rw [hksoffLo, CoreState.readIdle, extractLsb'_low_toNat]
    case ksoffHi => rintro rfl; rw [hksoffHi, CoreState.readIdle, extractLsb'_high_toNat]
    case buf =>
      intro hlow k hk
      rw [portAt_buf hlow, CoreState.readIdle]
      exact Memory.readWord_byte_of_aligned c.data.buf (by omega) hk

end Sys2Proof.Machine
end

section
/-! Proofs about the decoder and the engine's step (spec/30_encoding.md): commands and command words correspond (R88,
R93), the engine runs the pending command (R92), and every pending word completes (R205). -/

namespace Sys2Proof.Machine

/-! ## Commands and command words (R88, R93) -/

/-- A command word is its two fields side by side (R85). -/
theorem fieldMbz_append_fieldOp (w : Word) : fieldMbz w ++ fieldOp w = w := by
  apply BitVec.eq_of_getLsbD_eq
  intro i hi
  rw [BitVec.getLsbD_append, fieldMbz, fieldOp, BitVec.getLsbD_extractLsb', BitVec.getLsbD_extractLsb']
  by_cases hlow : i < 8
  · simp [hlow]
  · have hhigh : i - 8 < 24 := by omega
    have hplace : 8 + (i - 8) = i := by omega
    simp [hlow, hhigh, hplace]

/-- The row of a command's OP is the command's (R88). -/
theorem decodeOp_encodeOp (i : Instr) : decodeOp (encodeOp i) = some i := by
  cases i <;> decide

theorem fieldMbz_encode (i : Instr) : fieldMbz (encode i) = 0 := by
  cases i <;> decide

theorem fieldOp_encode (i : Instr) : fieldOp (encode i) = encodeOp i := by
  cases i <;> decide

/-- The opcode map has a row for every OP up to 0x09 and for 0x0F (R88). -/
theorem decodeOp_isSome_of_mapped :
    ∀ op : BitVec 8, op.toNat ≤ 0x09 ∨ op.toNat = 0x0F → (decodeOp op).isSome = true := by
  decide

/-- A word with MBZ zero decodes to the command in the row of its OP (R93). -/
theorem decodeWord_of_decodeOp {w : Word} {i : Instr} (hmbz : fieldMbz w = 0) (hop : decodeOp (fieldOp w) = some i) :
    decodeWord w = .command i := by
  simp [decodeWord, hmbz, hop]

/-- A command is decoded back from its word. -/
theorem decodeWord_encode (i : Instr) : decodeWord (encode i) = .command i :=
  decodeWord_of_decodeOp (fieldMbz_encode i) (by rw [fieldOp_encode, decodeOp_encodeOp])

/-- A word that decodes to a command is the command's word: both fields are the command's. -/
theorem eq_encode_of_decodeWord {w : Word} {i : Instr} (h : decodeWord w = .command i) : w = encode i := by
  obtain ⟨hmbz, hop⟩ := decodeWord_command h
  calc w = fieldMbz w ++ fieldOp w := (fieldMbz_append_fieldOp w).symm
    _ = encode i := by rw [hmbz, ← encodeOp_of_decodeOp hop, encode]

/-- The words that decode to a command, by the values of their fields (R88, R93). -/
theorem decodeWord_command_iff (w : Word) :
    (∃ i, decodeWord w = .command i) ↔
      w.toNat / 2 ^ 8 = 0 ∧ (w.toNat % 2 ^ 8 ≤ 0x09 ∨ w.toNat % 2 ^ 8 = 0x0F) := by
  rw [← fieldMbz_toNat, ← fieldOp_toNat]
  constructor
  · rintro ⟨i, h⟩
    obtain ⟨hmbz, hop⟩ := decodeWord_command h
    rw [hmbz, ← encodeOp_of_decodeOp hop]
    exact ⟨rfl, encodeOp_toNat i⟩
  · rintro ⟨hmbz, hmapped⟩
    obtain ⟨i, hop⟩ := Option.isSome_iff_exists.mp (decodeOp_isSome_of_mapped _ hmapped)
    exact ⟨i, decodeWord_of_decodeOp (BitVec.eq_of_toNat_eq hmbz) hop⟩

/-- Settles O2: the three parts are the round trip from commands, the one from words, and the words in its range. -/
theorem decodeAndEncodeAgree : Obligations.DecodeAndEncodeAgree :=
  ⟨fun i _ => decodeWord_encode i, fun _ _ => eq_encode_of_decodeWord, decodeWord_command_iff⟩

/-- Settles O1, by evaluating the decoder on the six words. -/
theorem sampleWordsDecode : Obligations.SampleWordsDecode := by
  unfold Obligations.SampleWordsDecode
  decide

/-! ## The engine's step (R92, R205) -/

/-- A completion lowers BUSY and raises DONE, with an error or without (R92, R211). -/
@[simp] theorem CoreState.complete_busy (c : CoreState) (r : Except ErrCode Operands) :
    (c.complete r).busy = false := by
  cases r <;> rfl
@[simp] theorem CoreState.complete_done (c : CoreState) (r : Except ErrCode Operands) :
    (c.complete r).done = true := by
  cases r <;> rfl

/-- With a word pending the engine completes it with some outcome. -/
theorem engineStep_eq_finish {s : State} {p : Pending} (h : s.core.pending = some p) :
    ∃ r, engineStep s = .next (s.finish r) := by
  cases hd : decodeWord p.word with
  | command i => exact ⟨_, (engineStep_decoded h hd).trans (exec_eq_finish i s)⟩
  | illegal why => exact ⟨.error .illegalCmd, engineStep_illegal h hd⟩

/-- Settles O5: the pending word is a command's or ILLEGAL, and the engine completes it either way. -/
theorem everyPendingWordCompletes : Obligations.EveryPendingWordCompletes := by
  intro s p hp
  constructor
  · cases hd : decodeWord p.word with
    | command i => exact .inl ⟨i, rfl, engineStep_decoded hp hd⟩
    | illegal why => exact .inr ⟨⟨why, rfl⟩, engineStep_illegal hp hd⟩
  · obtain ⟨r, hstep⟩ := engineStep_eq_finish hp
    exact ⟨_, hstep, s.core.complete_busy r, s.core.complete_done r⟩

/-- Where no turn is listed and `rst` is released, a busy CORE's step is the engine's. -/
theorem step_of_busy {s : State} (hturns : s.turns = []) (hrst : s.rst = false) (hbusy : s.core.busy = true) :
    step s = engineStep s := by
  rw [step, hturns]
  simp only [hbusy, if_true, heldOutcome_engineStep hrst]

/-- Where no turn is listed and `rst` is released, an idle CORE leaves the step to the host. -/
theorem step_of_idle {s : State} (hturns : s.turns = []) (hrst : s.rst = false) (hidle : s.core.busy = false) :
    step s = hostStep s := by
  rw [step, hturns]
  simp only [hidle, Bool.false_eq_true, if_false, heldOutcome_hostStep hrst]

/-- The engine's turn, where it is the first one listed and `rst` is released. -/
theorem step_of_engine_turn {s : State} {ts : List Turn} (hturns : s.turns = .engine :: ts) (hrst : s.rst = false) :
    step s = engineStep { s with turns := ts } := by
  have hdrop : s.dropTurn = { s with turns := ts } := by rw [State.dropTurn, hturns, List.tail_cons]
  rw [step, hturns]
  simp only [hdrop]
  exact heldOutcome_engineStep hrst

theorem CoreState.busy_of_pending {c : CoreState} {p : Pending} (h : c.pending = some p) : c.busy = true := by
  rw [CoreState.busy, h, Option.isSome_some]

/-- Settles O3: in both cases the step is the engine's, which runs the decoded command. -/
theorem stepRunsThePendingCommand : Obligations.StepRunsThePendingCommand := by
  intro s p i hp hd hrst
  constructor
  · intro hturns
    rw [step_of_busy hturns hrst (CoreState.busy_of_pending hp), engineStep_decoded hp hd]
  · intro ts hturns
    rw [step_of_engine_turn hturns hrst, engineStep_decoded (s := { s with turns := ts }) hp hd]

end Sys2Proof.Machine
end

section
/-! Proofs about the invariant and about `rst`: the operands' part of the invariant is kept by every command (R40,
R44), the whole by every step, and `rst` puts the CORE into its reset state (spec/70_reset_and_hazards.md R235,
R236). -/

namespace Sys2Proof.Machine

/-! ## The operands' part of the invariant (R40, R44) -/

/-- What the invariant says of the operands alone. -/
structure Operands.Inv (cfg : Params) (d : Operands) : Prop where
  bufCanonical : d.buf.wf = true
  bufInside : d.buf.within cfg.bufBytes = true
  noCursorIsZero : d.cursor.cur = false → d.cursor = Cursor.reset

theorem CoreState.Inv.operands {cfg : Params} {c : CoreState} (h : c.Inv cfg) : c.data.Inv cfg :=
  ⟨h.bufCanonical, h.bufInside, h.noCursorIsZero⟩

/-- A CORE with nothing pending meets the invariant where its operands do. -/
theorem CoreState.inv_of_idle {cfg : Params} {c : CoreState} (hd : c.data.Inv cfg) (hp : c.pending = none) :
    c.Inv cfg where
  bufCanonical := hd.bufCanonical
  bufInside := hd.bufInside
  snapshotCurrent p h := by rw [hp] at h; cases h
  busyNotDone h := by rw [CoreState.busy, hp] at h; cases h
  noCursorIsZero := hd.noCursorIsZero

theorem Operands.inv_reset (cfg : Params) (draw : Nat) : (Operands.reset draw).Inv cfg :=
  ⟨rfl, rfl, fun _ => rfl⟩

theorem CoreState.inv_rst (cfg : Params) (c : CoreState) : c.rst.Inv cfg :=
  CoreState.inv_of_idle (Operands.inv_reset cfg _) rfl

namespace Operands.Inv

variable {cfg : Params} {d d' : Operands}

/-- The invariant reads BUF and the cursor only. -/
theorem of_eq (h : d.Inv cfg) (hbuf : d'.buf = d.buf) (hcursor : d'.cursor = d.cursor) : d'.Inv cfg := by
  obtain ⟨hwf, hinside, hzero⟩ := h
  exact ⟨by rwa [hbuf], by rwa [hbuf], by rwa [hcursor]⟩

/-- A valid cursor is under no condition. -/
theorem of_valid_cursor (h : d.Inv cfg) (hbuf : d'.buf = d.buf) (hcur : d'.cursor.cur = true) : d'.Inv cfg :=
  ⟨hbuf ▸ h.bufCanonical, hbuf ▸ h.bufInside, fun hno => absurd (hno.symm.trans hcur) Bool.false_ne_true⟩

/-- A write of a slice that ends inside BUF (R62). -/
theorem writeSlice (h : d.Inv cfg) {start : Nat} {bs : List Byte} (hend : start + bs.length ≤ cfg.bufBytes) :
    ({ d with buf := d.buf.writeSlice start bs } : Operands).Inv cfg :=
  ⟨Memory.wf_writeSlice _ _ h.bufCanonical, Memory.within_writeSlice _ _ h.bufInside hend, h.noCursorIsZero⟩

theorem withMessage (h : d.Inv cfg) {bs : List Byte} (hend : 16 + bs.length ≤ cfg.bufBytes) :
    (d.withMessage bs).Inv cfg :=
  h.writeSlice hend

/-- The tag slot lies inside BUF in every configuration (R7). -/
theorem withTag (h : d.Inv cfg) (tag : Bytes 16) : (d.withTag tag).Inv cfg :=
  h.writeSlice (by rw [Vector.length_toList, Params.bufBytes]; omega)

end Operands.Inv

/-- Every command that answers leaves operands that meet the invariant. -/
theorem commandBody_inv {cfg : Params} {i : Instr} {d d' : Operands} (hd : d.Inv cfg)
    (h : commandBody cfg i d d = .ok d') : d'.Inv cfg := by
  cases i with
  | nop => rwa [nopBody_ok h]
  | agree => rw [(agreeBody_ok h).2]; exact hd.of_eq rfl rfl
  | hkey => rw [hkeyBody_ok h]; exact hd.of_eq rfl rfl
  | hsalsa => rw [hsalsaBody_ok h]; exact hd.of_eq rfl rfl
  | ksInit => rw [ksInitBody_ok h]; exact hd.of_valid_cursor rfl rfl
  | ksOtk =>
    obtain ⟨hcur, -, rfl⟩ := ksOtkBody_ok h
    exact hd.of_valid_cursor rfl hcur
  | ksXor =>
    obtain ⟨hlen, hcur, -, rfl⟩ := ksXorBody_ok h
    have hbuf := hd.withMessage (bs := xorBytes d.message (d.cursor.emit d.length))
      (by simpa [Cursor.emit, Operands.length] using not_overLong hlen)
    exact hbuf.of_valid_cursor rfl hcur
  | poly =>
    obtain ⟨-, rfl⟩ := polyBody_ok h
    exact hd.withTag _
  | sealBox =>
    obtain ⟨hlen, -, _, _, rfl, rfl, rfl⟩ := sealBody_ok h
    exact (hd.withTag _).withMessage (by rw [boxCipher_boxKeystream_length]; exact not_overLong hlen)
  | openBox =>
    obtain ⟨hlen, -, _, rfl, -, rfl⟩ := openBody_ok h
    exact hd.withMessage (by rw [boxCipher_boxKeystream_length]; exact not_overLong hlen)
  | clear =>
    rw [clearBody_ok h]
    exact ⟨hd.bufCanonical, hd.bufInside, fun _ => rfl⟩

/-! ## The invariant of the CORE -/

/-- A completion that leaves good operands leaves a CORE that meets the invariant. -/
theorem CoreState.Inv.complete {cfg : Params} {c : CoreState} (hc : c.Inv cfg) {r : Except ErrCode Operands}
    (hr : ∀ d, r = .ok d → d.Inv cfg) : (c.complete r).Inv cfg := by
  cases r with
  | ok d => exact CoreState.inv_of_idle (hr d rfl) rfl
  | error e => exact CoreState.inv_of_idle hc.operands rfl

/-- The engine's step keeps the CORE's invariant, and the configuration and the host with it. -/
theorem engineStep_inv {s t : State} (hc : s.core.Inv s.cfg) (h : engineStep s = .next t) :
    t.core.Inv t.cfg ∧ t.host = s.host := by
  rcases engineStep_cases h with ⟨_, rfl⟩ | ⟨_, i, _, _, rfl⟩ | ⟨_, _, _, _, rfl⟩
  · exact ⟨hc, rfl⟩
  · rw [hc.snapshot_eq]
    exact ⟨hc.complete fun _ => commandBody_inv hc.operands, rfl⟩
  · exact ⟨CoreState.inv_of_idle hc.operands rfl, rfl⟩

/-- A write to STATUS clears flags only. -/
theorem CoreState.Inv.writeStatus {cfg : Params} {c : CoreState} (hc : c.Inv cfg) (v : Word) :
    (c.writeStatus v).Inv cfg where
  bufCanonical := hc.bufCanonical
  bufInside := hc.bufInside
  snapshotCurrent := hc.snapshotCurrent
  busyNotDone h := by
    obtain ⟨hdone, herr⟩ := hc.busyNotDone h
    exact ⟨by simp [hdone], herr⟩
  noCursorIsZero := hc.noCursorIsZero

/-- A dropped write sets WERR, which the invariant does not read. -/
theorem CoreState.Inv.dropWrite {cfg : Params} {c : CoreState} (hc : c.Inv cfg) : c.dropWrite.Inv cfg :=
  ⟨hc.bufCanonical, hc.bufInside, hc.snapshotCurrent, hc.busyNotDone, hc.noCursorIsZero⟩

/-- An accept takes its snapshot of the data as it stands and clears DONE and ERR (R91). -/
theorem CoreState.Inv.accept {cfg : Params} {c : CoreState} (hc : c.Inv cfg) (w : Word) : (c.accept w).Inv cfg where
  bufCanonical := hc.bufCanonical
  bufInside := hc.bufInside
  snapshotCurrent p h := by
    obtain rfl := Option.some.inj h
    rfl
  busyNotDone _ := ⟨rfl, rfl⟩
  noCursorIsZero := hc.noCursorIsZero

/-- A write of a word of BUF inside the window keeps the operands' part; a write of another port leaves BUF and the
cursor. -/
theorem writeIdle_operands_inv {cfg : Params} {c : CoreState} (hd : c.data.Inv cfg) (v : Word) {a : Nat}
    (h4 : a % 4 = 0) (hlt : a < cfg.windowBytes) : (c.writeIdle v (portAt a)).data.Inv cfg := by
  have hcursor := writeIdle_cursor c v (portAt a)
  have hbuf := writeIdle_buf c v (portAt a)
  split at hbuf
  · next j hport =>
    have hinside : 4 * j + 4 ≤ cfg.bufBytes := portAt_buf_inside hport h4 hlt
    have hword : ({ c.data with buf := c.data.buf.writeWord j v } : Operands).Inv cfg :=
      hd.writeSlice (by simpa using hinside)
    exact hword.of_eq hbuf hcursor
  · exact hd.of_eq hbuf hcursor

/-- A write to an idle CORE keeps its invariant. -/
theorem CoreState.Inv.writeIdle {cfg : Params} {c : CoreState} (hc : c.Inv cfg) (hidle : c.busy = false) (v : Word)
    {a : Nat} (h4 : a % 4 = 0) (hlt : a < cfg.windowBytes) : (c.writeIdle v (portAt a)).Inv cfg := by
  by_cases hcmd : portAt a = .cmd
  · rw [hcmd]
    exact hc.accept v
  · have hnone : c.pending = none := by simpa [CoreState.busy] using hidle
    exact CoreState.inv_of_idle (writeIdle_operands_inv hc.operands v h4 hlt)
      ((writeIdle_pending hcmd).trans hnone)

/-- A transaction keeps the CORE's invariant. -/
theorem transact_inv {cfg : Params} {c : CoreState} {op : BusOp} {r : BusResult} (hc : c.Inv cfg)
    (h : c.transact cfg op = some r) : r.core.Inv cfg := by
  obtain ⟨a, ha, ⟨_, rfl⟩ | ⟨_, _, rfl⟩ | ⟨v, hlegal, _, rfl⟩⟩ := transact_cases h
  · exact hc
  · exact hc
  · have h4 : a % 4 = 0 := by
      by_contra hodd
      rw [busLegal_eq_false_iff.mpr (.inl hodd)] at hlegal
      exact Bool.false_ne_true hlegal
    rcases writePort_cases c v (portAt a) with ⟨_, e⟩ | ⟨_, _, e⟩ | ⟨_, hidle, e⟩ <;> simp only [e]
    · exact hc.writeStatus v
    · exact hc.dropWrite
    · exact hc.writeIdle hidle v h4 (windowOffset_lt ha)

/-! ## The invariant of the machine -/

/-- A transaction keeps the host's names rising. -/
theorem gotAccess_names_rising {h : HostAgent} (hn : assocRising h.names = true) (k : Access) (name : Nat) (v : Word)
    (r : Resp) : assocRising (h.gotAccess k name v r).names = true := by
  cases k with
  | read => exact assocRising_assocSet name v hn
  | write w => exact hn

/-- A host step keeps the CORE's invariant and the host's names rising. -/
theorem hostStep_inv {s t : State} (hc : s.core.Inv s.cfg) (hn : assocRising s.host.names = true)
    (h : hostStep s = .next t) : t.core.Inv t.cfg ∧ assocRising t.host.names = true := by
  rcases hostStep_cases h with rfl | ⟨_, rfl⟩ | ⟨_, r, k, name, hr, rfl⟩
  · exact ⟨hc, hn⟩
  · exact ⟨hc, hn⟩
  · exact ⟨transact_inv hc hr, gotAccess_names_rising hn k name r.data r.resp⟩

/-- Whatever a step did, the level of `rst` adds the part of the invariant about it (R235). -/
theorem State.held_inv {u : State} (hc : u.core.Inv u.cfg) (hn : assocRising u.host.names = true) : u.held.Inv := by
  cases hr : u.rst with
  | false =>
    rw [State.held_low hr]
    exact ⟨hc, fun h => absurd (hr.symm.trans h) Bool.false_ne_true, hn⟩
  | true =>
    rw [State.held_high hr]
    exact ⟨u.core.inv_rst u.cfg, fun _ => u.core.isReset_rst, hn⟩

/-- Driving `rst` resets the CORE, or leaves it alone with `rst` low. -/
theorem State.driveRst_inv {s : State} (hc : s.core.Inv s.cfg) (hn : assocRising s.host.names = true) (level : Bool) :
    (s.driveRst level).Inv := by
  cases hreset : level || s.rst with
  | true =>
    have hcore : (s.driveRst level).core = s.core.rst := by rw [State.driveRst_core, hreset, if_pos rfl]
    exact ⟨hcore ▸ s.core.inv_rst s.cfg, fun _ => hcore ▸ s.core.isReset_rst, hn⟩
  | false =>
    obtain ⟨rfl, -⟩ := Bool.or_eq_false_iff.mp hreset
    have hcore : (s.driveRst false).core = s.core := by rw [State.driveRst_core, hreset, if_neg Bool.false_ne_true]
    exact ⟨by rw [hcore]; exact hc, fun h => absurd h Bool.false_ne_true, hn⟩

/-- Settles O60, by whose turn the step takes. -/
theorem everyStepKeepsTheInvariant : Obligations.EveryStepKeepsTheInvariant := by
  intro s t hi h
  rcases step_cases s with ⟨s', hs', e⟩ | ⟨s', hs', e⟩ | ⟨level, _, e⟩ <;> rw [e] at h
  · obtain ⟨_, hi'⟩ := turnTaken_keeps hs' hi
    obtain ⟨u, hu, rfl⟩ := heldOutcome_inv h
    obtain ⟨hc, hhost⟩ := engineStep_inv hi'.core hu
    exact State.held_inv hc (by rw [hhost]; exact hi'.names)
  · obtain ⟨_, hi'⟩ := turnTaken_keeps hs' hi
    obtain ⟨u, hu, rfl⟩ := heldOutcome_inv h
    obtain ⟨hc, hn⟩ := hostStep_inv hi'.core hi'.names hu
    exact State.held_inv hc hn
  · cases h
    exact State.driveRst_inv (s := s.dropTurn) hi.core hi.names level

/-- Settles O59: right after reset nothing is pending, `rst` is low and the host has no names. -/
theorem resetMeetsTheInvariant : Obligations.ResetMeetsTheInvariant := by
  intro p
  exact ⟨CoreState.inv_of_idle (Operands.inv_reset p 0) rfl, fun h => absurd h Bool.false_ne_true, rfl⟩

/-! ## `rst` (R235, R236) -/

theorem CoreState.rst_irq (c : CoreState) : c.rst.irq = false := rfl

/-- After `rst` every byte of BUF is the draw of the next number. -/
theorem CoreState.rst_read (c : CoreState) (i : Nat) :
    c.rst.data.buf.read i = Config.bufDraw (c.data.buf.draw + 1) i := rfl

/-- Asserting `rst`, or releasing it where it was asserted, resets the CORE and nothing else. -/
theorem step_of_rst_turn {s : State} {level : Bool} {ts : List Turn} (hturns : s.turns = .rst level :: ts)
    (hedge : level = true ∨ s.rst = true) :
    step s = .next { s with rst := level, turns := ts, core := s.core.rst } := by
  have hreset : (level || s.rst) = true := Bool.or_eq_true_iff.mpr hedge
  rw [step, hturns]
  simp [State.driveRst, State.dropTurn, hreset, hturns]

/-- Taking a turn, or having none to take, leaves the CORE and the level of `rst`. -/
theorem turnTaken_core_rst {s s' : State} (h : s' = s ∨ s' = s.dropTurn) : s'.core = s.core ∧ s'.rst = s.rst := by
  rcases h with rfl | rfl <;> exact ⟨rfl, rfl⟩

/-- While `rst` is asserted, a step resets a CORE that stands at the same draw. -/
theorem step_core_of_rst {s t : State} (hrst : s.rst = true) (h : step s = .next t) :
    ∃ c : CoreState, c.data.buf.draw = s.core.data.buf.draw ∧ t.core = c.rst := by
  rcases step_cases s with ⟨s', hs', e⟩ | ⟨s', hs', e⟩ | ⟨level, _, e⟩ <;> rw [e] at h
  · obtain ⟨u, hu, rfl⟩ := heldOutcome_inv h
    obtain ⟨hcore, hlevel⟩ := turnTaken_core_rst hs'
    rw [State.held_high ((engineStep_rst hu).trans (hlevel.trans hrst))]
    exact ⟨u.core, by rw [engineStep_draw hu, hcore], rfl⟩
  · obtain ⟨u, hu, rfl⟩ := heldOutcome_inv h
    obtain ⟨hcore, hlevel⟩ := turnTaken_core_rst hs'
    rw [State.held_high ((hostStep_rst hu).trans (hlevel.trans hrst))]
    exact ⟨u.core, by rw [hostStep_draw hu, hcore], rfl⟩
  · cases h
    exact ⟨s.core, rfl, by simp [hrst]⟩

/-- Settles O58: every step the statement is about ends in `rst` of a CORE at the present draw. -/
theorem resetDiscardsThePendingCommand : Obligations.ResetDiscardsThePendingCommand := by
  intro s
  refine ⟨fun level ts hturns hedge => ?_, fun hrst t h => ?_⟩
  · exact ⟨_, step_of_rst_turn hturns hedge, rfl, rfl, rfl, rfl, s.core.isReset_rst, s.core.rst_irq,
      s.core.rst_read⟩
  · obtain ⟨c, hdraw, hcore⟩ := step_core_of_rst hrst h
    rw [hcore, ← hdraw]
    exact ⟨c.isReset_rst, c.rst_irq, Nat.lt_succ_self _, c.rst_read⟩

end Sys2Proof.Machine
end

section
/-! Proofs about the commands one by one (spec/40_key_agreement.md R119 to spec/44_box.md R189): what each writes on
success, and that it leaves the rest. -/

namespace Sys2Proof.Machine

/-! ## AGREE, HSALSA, HKEY and KS_INIT (R119, R139, R140, R155) -/

/-- Without LOW_ORDER's cause AGREE's pseudocode answers the X25519 result in SS. -/
theorem agreeBody_of_not_lowOrder {snap : Operands} (live : Operands) (hlow : ¬ snap.lowOrder) :
    agreeBody snap live = .ok { live with ss := snap.sharedSecret } := by
  rw [agreeBody, shareSecret_of_not_lowOrder hlow]

/-- Settles O7: without a rejection the pseudocode answers. -/
theorem agreeStoresTheSharedSecret : Obligations.AgreeStoresTheSharedSecret := by
  intro s hlow
  have hbody := agreeBody_of_not_lowOrder s.core.data hlow
  exact exec_of_commandBody_ok (i := .agree) hbody

/-- Settles O8: HSALSA's pseudocode has no error. -/
theorem hsalsaStoresTheSubkey : Obligations.HsalsaStoresTheSubkey := by
  intro s
  exact exec_of_commandBody_ok (i := .hsalsa) (s := s) rfl

/-- Settles O9: HKEY's pseudocode has no error. -/
theorem hkeyReplacesTheSharedSecret : Obligations.HkeyReplacesTheSharedSecret := by
  intro s
  exact exec_of_commandBody_ok (i := .hkey) (s := s) rfl

/-- Settles O10: KS_INIT's pseudocode has no error. -/
theorem ksInitStartsACursor : Obligations.KsInitStartsACursor := by
  intro s
  exact exec_of_commandBody_ok (i := .ksInit) (s := s) rfl

/-! ## KS_OTK and KS_XOR (R156, R157) -/

/-- Settles O34: a split is between two of the bytes that `keystream_getElem?` gives. -/
theorem keystreamSplitsAnywhere : Obligations.KeystreamSplitsAnywhere := keystream_add

/-- Byte j that a cursor emits is the keystream's at KS_OFF + j (R149, R154). -/
theorem Cursor.emit_getD (c : Cursor) {n j : Nat} (hj : j < n) :
    (c.emit n).getD j 0 = streamByte c.key c.nonce (c.off.toNat + j) := by
  rw [Cursor.emit, List.getD_eq_getElem?_getD, keystream_getElem? _ _ _ hj, Option.getD_some]

/-- KS_OFF after n more bytes, as the exact sum. -/
theorem off_add_eq_ofNat (off : BitVec 64) (n : Nat) :
    off + BitVec.ofNat 64 n = BitVec.ofNat 64 (off.toNat + n) := by
  rw [BitVec.ofNat_add, BitVec.ofNat_toNat, BitVec.setWidth_eq]

/-- Settles O11: OTK is what the cursor emits, and its bytes are the keystream's. -/
theorem ksOtkTakesTheNextBytes : Obligations.KsOtkTakesTheNextBytes := by
  intro s hcur hroom
  have hbody := ksOtkBody_of_valid s.core.data hcur hroom
  have hoff : s.core.snapshot.cursor.off + 32 = BitVec.ofNat 64 (s.core.snapshot.cursor.off.toNat + 32) :=
    off_add_eq_ofNat _ 32
  rw [hoff] at hbody
  refine ⟨_, fun j hj => ?_, exec_of_commandBody_ok (i := .ksOtk) hbody⟩
  rw [bytesOfList_getElem]
  exact Cursor.emit_getD _ hj

/-- Byte j of the message combined with a string. -/
theorem xorBytes_message_getElem (d : Operands) (z : List Byte) {j : Nat} (h : j < (xorBytes d.message z).length) :
    (xorBytes d.message z)[j] = d.buf.read (16 + j) ^^^ z.getD j 0 := by
  obtain ⟨hmessage, hz⟩ := Nat.lt_min.mp (xorBytes_length d.message z ▸ h)
  rw [xorBytes_getElem _ _ j hmessage hz, List.getD_eq_getElem _ _ hz]
  simp only [Operands.message, Memory.slice_getElem]

/-- Settles O12: each byte of the written slice, and every byte outside it. -/
theorem ksXorCombinesTheMessage : Obligations.KsXorCombinesTheMessage := by
  intro s hlen hcur hroom
  have hbody := ksXorBody_of_valid s.core.data hlen hcur hroom
  rw [off_add_eq_ofNat] at hbody
  have hlength : (xorBytes s.core.snapshot.message
      (s.core.snapshot.cursor.emit s.core.snapshot.length)).length = s.core.snapshot.len.toNat := by
    simp [Cursor.emit, Operands.length]
  refine ⟨_, exec_of_commandBody_ok (i := .ksXor) hbody, rfl, fun j hj => ?_, fun a ha => ?_⟩
  · rw [State.completedWith_data, Memory.read_writeSlice_in _ _ _ j (by omega), xorBytes_message_getElem,
      Cursor.emit_getD (n := s.core.snapshot.length) _ hj]
    rfl
  · exact Memory.read_writeSlice_out _ _ _ (by omega)

/-! ## The tag slot and the message after a write (R62) -/

theorem Operands.withTag_read_in (d : Operands) (tag : Bytes 16) {j : Nat} (hj : j < 16) :
    (d.withTag tag).buf.read j = tag[j] := by
  have hread := Memory.read_writeSlice_in d.buf 0 tag.toList j (by simpa using hj)
  rwa [Nat.zero_add, Vector.getElem_toList] at hread

theorem Operands.withTag_read_out (d : Operands) (tag : Bytes 16) {a : Nat} (ha : 16 ≤ a) :
    (d.withTag tag).buf.read a = d.buf.read a :=
  Memory.read_writeSlice_out d.buf 0 _ (.inr (by simpa using ha))

theorem Operands.withMessage_read_in (d : Operands) (bs : List Byte) {j : Nat} (hj : j < bs.length) :
    (d.withMessage bs).buf.read (16 + j) = bs[j] :=
  Memory.read_writeSlice_in d.buf 16 bs j hj

theorem Operands.withMessage_read_out (d : Operands) (bs : List Byte) {a : Nat} (ha : a < 16 ∨ 16 + bs.length ≤ a) :
    (d.withMessage bs).buf.read a = d.buf.read a :=
  Memory.read_writeSlice_out d.buf 16 bs ha

/-! ## POLY (R172) -/

/-- With LEN in range POLY's pseudocode answers the tag of the message. -/
theorem polyBody_of_valid {cfg : Params} {snap : Operands} (live : Operands) (hlen : ¬ snap.overLong cfg) :
    polyBody cfg snap live = .ok (live.withTag (poly1305 snap.otk snap.message)) := by
  rw [← tooLong_iff] at hlen
  exact if_neg hlen

/-- Settles O13: a tag write of BUF. -/
theorem polyWritesTheTag : Obligations.PolyWritesTheTag := by
  intro s hlen
  have hbody := polyBody_of_valid s.core.data hlen
  exact ⟨_, exec_of_commandBody_ok (i := .poly) hbody, rfl, fun j hj => Operands.withTag_read_in _ _ hj,
    fun a ha => Operands.withTag_read_out _ _ ha⟩

/-! ## SEAL (R184) -/

/-- Byte j of the message combined with the box's keystream from offset 32 on. -/
theorem boxCipher_getElem (d : Operands) (z : List Byte) {j : Nat} (h : j < (boxCipher d z).length) :
    (boxCipher d z)[j] = d.buf.read (16 + j) ^^^ z.getD (32 + j) 0 := by
  have hdrop : (z.drop 32).getD j 0 = z.getD (32 + j) 0 := by
    rw [List.getD_eq_getElem?_getD, List.getElem?_drop, List.getD_eq_getElem?_getD]
  rw [← hdrop]
  exact xorBytes_message_getElem d _ h

/-- The string SEAL and OPEN write is as long as the message. -/
theorem boxCipher_boxStream_length (d : Operands) : (boxCipher d d.boxStream).length = d.len.toNat :=
  boxCipher_boxKeystream_length d d.sharedSecret

/-- Settles O14: a tag write and a message write of BUF. -/
theorem sealWritesTheBox : Obligations.SealWritesTheBox := by
  intro s hlen hlow
  have hbody := sealBody_of_valid s.core.data hlen hlow
  have hlength := boxCipher_boxStream_length s.core.snapshot
  refine ⟨_, boxCipher s.core.snapshot s.core.snapshot.boxStream, exec_of_commandBody_ok (i := .sealBox) hbody, rfl,
    hlength, fun j hj => boxCipher_getElem _ _ hj, fun j hj => ?tag, fun j hj => Operands.withMessage_read_in _ _ hj,
    fun a ha => ?rest⟩
  case tag =>
    rw [State.completedWith_data, Operands.withMessage_read_out _ _ (.inl hj), Operands.withTag_read_in _ _ hj]
    rfl
  case rest =>
    rw [State.completedWith_data, Operands.withMessage_read_out _ _ (.inr (by omega)),
      Operands.withTag_read_out _ _ (by omega)]

/-! ## OPEN (R188, R189) -/

/-- Where the recomputed tag is the received one, OPEN's pseudocode decrypts the message. -/
theorem openBody_of_verified {cfg : Params} {snap : Operands} (live : Operands) (hlen : ¬ snap.overLong cfg)
    (hlow : ¬ snap.lowOrder) (htag : ¬ snap.tagDiffers) :
    openBody cfg snap live = .ok (live.withMessage (boxCipher snap snap.boxStream)) := by
  rw [← tooLong_iff] at hlen
  rw [openBody, if_neg hlen, shareSecret_of_not_lowOrder hlow]
  exact if_pos ((ctEq16_tagSlot_iff snap).mpr htag)

/-- Where the recomputed tag is not the received one, OPEN's pseudocode raises AUTH_FAILED. -/
theorem openBody_of_tagDiffers {cfg : Params} {snap : Operands} (live : Operands) (hlen : ¬ snap.overLong cfg)
    (hlow : ¬ snap.lowOrder) (htag : snap.tagDiffers) : openBody cfg snap live = .error .authFailed := by
  rw [← tooLong_iff] at hlen
  rw [openBody, if_neg hlen, shareSecret_of_not_lowOrder hlow]
  exact if_neg fun heq => (ctEq16_tagSlot_iff snap).mp heq htag

/-- A command whose pseudocode raises an error completes with it and changes only STATUS (R211, R212). -/
theorem exec_of_commandBody_error {i : Instr} {s : State} {e : ErrCode}
    (h : commandBody s.cfg i s.core.snapshot s.core.data = .error e) : exec i s = .next (s.failedWith e) := by
  rw [exec_eq_finish, h, State.finish_error]

/-- Settles O15: a message write of BUF. -/
theorem openDecryptsAVerifiedBox : Obligations.OpenDecryptsAVerifiedBox := by
  intro s hlen hlow htag
  have hbody := openBody_of_verified s.core.data hlen hlow htag
  have hlength := boxCipher_boxStream_length s.core.snapshot
  refine ⟨_, exec_of_commandBody_ok (i := .openBox) hbody, rfl, fun j hj => ?_, fun a ha => ?_⟩
  · rw [State.completedWith_data, Operands.withMessage_read_in _ _ (by omega), boxCipher_getElem]
  · exact Operands.withMessage_read_out _ _ (by omega)

/-- Settles O17: the comparison fails, so the pseudocode raises AUTH_FAILED. -/
theorem openReleasesNothingOnAWrongTag : Obligations.OpenReleasesNothingOnAWrongTag := by
  intro s hlen hlow htag
  exact exec_of_commandBody_error (i := .openBox) (openBody_of_tagDiffers s.core.data hlen hlow htag)

/-- Settles O40, by the fold of the byte differences. -/
theorem tagComparisonIsEquality : Obligations.TagComparisonIsEquality := ctEq16_iff

/-! ## The low-order check (R117) -/

/-- Under LOW_ORDER's cause ShareSecret raises it. -/
theorem shareSecret_of_lowOrder {d : Operands} (h : d.lowOrder) :
    shareSecret d.sk d.pk d.ctrl.lochk = .error .lowOrder :=
  if_pos h

/-- Settles O27: all three commands ask for the shared secret, SEAL and OPEN once LEN is in range. -/
theorem lowOrderCheckRejects : Obligations.LowOrderCheckRejects := by
  intro s hlow
  have hshare := shareSecret_of_lowOrder hlow
  refine ⟨exec_of_commandBody_error (i := .agree) ?_, fun hlen =>
    ⟨exec_of_commandBody_error (i := .sealBox) ?_, exec_of_commandBody_error (i := .openBox) ?_⟩⟩
  · rw [commandBody, agreeBody, hshare]
  · rw [commandBody, sealBody, if_neg (mt (tooLong_iff _ _).mp hlen), hshare]
  · rw [commandBody, openBody, if_neg (mt (tooLong_iff _ _).mp hlen), hshare]

/-! ## What every command leaves unchanged (R86, R212) -/

/-- Settles O19: only a failed completion leaves ERR other than OK. -/
theorem failedCommandsWriteOnlyStatus : Obligations.FailedCommandsWriteOnlyStatus := by
  intro i s t h herr
  rw [exec_next h] at herr ⊢
  rcases finish_cases s (commandBody s.cfg i s.core.snapshot s.core.data) with ⟨d, _, e⟩ | ⟨code, _, e⟩ <;>
    rw [e] at herr ⊢
  · exact absurd rfl herr
  · rfl

/-- The registers and the cursor are written by the commands of R86's column "writes on success" only. -/
structure Operands.RegistersKept (i : Instr) (live d : Operands) : Prop where
  ctrl : d.ctrl = live.ctrl
  len : d.len = live.len
  keys : i ≠ .clear → d.sk = live.sk ∧ d.pk = live.pk ∧ d.nonce = live.nonce
  ss : i ∉ [.agree, .hkey, .clear] → d.ss = live.ss
  subkey : i ∉ [.hsalsa, .clear] → d.subkey = live.subkey
  otk : i ∉ [.ksOtk, .clear] → d.otk = live.otk
  cursor : i ∉ [.ksInit, .ksOtk, .ksXor, .clear] → d.cursor = live.cursor
  cursorKey : i ∈ [.ksOtk, .ksXor] →
    d.cursor.cur = live.cursor.cur ∧ d.cursor.key = live.cursor.key ∧ d.cursor.nonce = live.cursor.nonce

/-- BUF is written by KS_XOR, POLY, SEAL and OPEN only, each inside its fixed slices (R62, R86). -/
structure Operands.BufKept (i : Instr) (snap live d : Operands) : Prop where
  buf : i ∉ [.ksXor, .poly, .sealBox, .openBox] → d.buf = live.buf
  tagSlot : i ∉ [.poly, .sealBox] → ∀ a < 16, d.buf.read a = live.buf.read a
  message : i = .poly → ∀ a, 16 ≤ a → d.buf.read a = live.buf.read a
  rest : ∀ a, 16 + snap.len.toNat ≤ a → d.buf.read a = live.buf.read a

/-- A write of BUF, by any command, keeps the registers and the cursor. -/
theorem Operands.RegistersKept.of_buf (i : Instr) (live : Operands) (m : Memory) :
    Operands.RegistersKept i live { live with buf := m } :=
  ⟨rfl, rfl, fun _ => ⟨rfl, rfl, rfl⟩, fun _ => rfl, fun _ => rfl, fun _ => rfl, fun _ => rfl,
    fun _ => ⟨rfl, rfl, rfl⟩⟩

/-- Operands with the same BUF keep it under any command. -/
theorem Operands.BufKept.of_eq {i : Instr} {snap live d : Operands} (h : d.buf = live.buf) :
    Operands.BufKept i snap live d :=
  ⟨fun _ => h, fun _ _ _ => by rw [h], fun _ _ _ => by rw [h], fun _ _ => by rw [h]⟩

/-- A write of the message alone, by a command that may write BUF. -/
theorem Operands.BufKept.of_message {i : Instr} {snap live d : Operands} {bs : List Byte}
    (hi : i = .ksXor ∨ i = .openBox) (hd : d.buf = live.buf.writeSlice 16 bs) (hlength : bs.length = snap.len.toNat) :
    Operands.BufKept i snap live d where
  buf h := by rcases hi with rfl | rfl <;> simp at h
  tagSlot _ a ha := by rw [hd, Memory.read_writeSlice_out _ _ _ (.inl ha)]
  message h := by rcases hi with rfl | rfl <;> cases h
  rest a ha := by rw [hd, Memory.read_writeSlice_out _ _ _ (.inr (by omega))]

theorem commandBody_registersKept {cfg : Params} {i : Instr} {snap live d : Operands}
    (h : commandBody cfg i snap live = .ok d) : Operands.RegistersKept i live d := by
  cases i with
  | nop => rw [nopBody_ok h]; exact .of_buf _ live live.buf
  | agree => rw [(agreeBody_ok h).2]; constructor <;> simp
  | hkey => rw [hkeyBody_ok h]; constructor <;> simp
  | hsalsa => rw [hsalsaBody_ok h]; constructor <;> simp
  | ksInit => rw [ksInitBody_ok h]; constructor <;> simp
  | ksOtk =>
    obtain ⟨-, -, rfl⟩ := ksOtkBody_ok h
    constructor <;> simp
  | ksXor =>
    obtain ⟨-, -, -, rfl⟩ := ksXorBody_ok h
    constructor <;> simp
  | poly =>
    obtain ⟨-, rfl⟩ := polyBody_ok h
    exact .of_buf _ live _
  | sealBox =>
    obtain ⟨-, -, _, _, -, -, rfl⟩ := sealBody_ok h
    exact .of_buf _ live _
  | openBox =>
    obtain ⟨-, -, _, -, -, rfl⟩ := openBody_ok h
    exact .of_buf _ live _
  | clear => rw [clearBody_ok h]; constructor <;> simp

theorem commandBody_bufKept {cfg : Params} {i : Instr} {snap live d : Operands}
    (h : commandBody cfg i snap live = .ok d) : Operands.BufKept i snap live d := by
  cases i with
  | nop => rw [nopBody_ok h]; exact .of_eq rfl
  | agree => rw [(agreeBody_ok h).2]; exact .of_eq rfl
  | hkey => rw [hkeyBody_ok h]; exact .of_eq rfl
  | hsalsa => rw [hsalsaBody_ok h]; exact .of_eq rfl
  | ksInit => rw [ksInitBody_ok h]; exact .of_eq rfl
  | ksOtk => rw [(ksOtkBody_ok h).2.2]; exact .of_eq rfl
  | clear => rw [clearBody_ok h]; exact .of_eq rfl
  | ksXor =>
    obtain ⟨-, -, -, rfl⟩ := ksXorBody_ok h
    exact .of_message (.inl rfl) rfl (by simp [Cursor.emit, Operands.length])
  | openBox =>
    obtain ⟨-, -, _, rfl, -, rfl⟩ := openBody_ok h
    exact .of_message (.inr rfl) rfl (boxCipher_boxKeystream_length _ _)
  | poly =>
    obtain ⟨-, rfl⟩ := polyBody_ok h
    exact ⟨fun hi => absurd (by simp) hi, fun hi => absurd (by simp) hi,
      fun _ a ha => Operands.withTag_read_out _ _ ha, fun a ha => Operands.withTag_read_out _ _ (by omega)⟩
  | sealBox =>
    obtain ⟨-, -, _, _, rfl, rfl, rfl⟩ := sealBody_ok h
    have hlength := boxCipher_boxKeystream_length snap snap.sharedSecret
    refine ⟨fun hi => absurd (by simp) hi, fun hi => absurd (by simp) hi, nofun, fun a ha => ?_⟩
    rw [Operands.withMessage_read_out _ _ (.inr (by omega)), Operands.withTag_read_out _ _ (by omega)]

/-- Every completion keeps what R86 does not name: a success by the command's pseudocode, an error everything. -/
theorem exec_operandsKept {i : Instr} {s t : State} (h : exec i s = .next t) :
    Operands.RegistersKept i s.core.data t.core.data ∧
      Operands.BufKept i s.core.snapshot s.core.data t.core.data := by
  rw [exec_next h]
  rcases finish_cases s (commandBody s.cfg i s.core.snapshot s.core.data) with ⟨d, hbody, e⟩ | ⟨_, _, e⟩ <;> rw [e]
  · exact ⟨commandBody_registersKept hbody, commandBody_bufKept hbody⟩
  · exact ⟨.of_buf i s.core.data s.core.data.buf, .of_eq rfl⟩

/-- A completion changes the data and STATUS's BUSY, DONE and ERR, and nothing else of the machine (R92, R212). -/
theorem exec_machineKept {i : Instr} {s t : State} (h : exec i s = .next t) :
    t.cfg = s.cfg ∧ t.rst = s.rst ∧ t.host = s.host ∧ t.turns = s.turns ∧ t.core.werr = s.core.werr := by
  rw [exec_next h]
  rcases finish_cases s (commandBody s.cfg i s.core.snapshot s.core.data) with ⟨d, _, e⟩ | ⟨_, _, e⟩ <;> rw [e] <;>
    exact ⟨rfl, rfl, rfl, rfl, rfl⟩

/-- Settles O20: the machine's fields, the registers and BUF. -/
theorem commandsWriteOnlyTheirOperands : Obligations.CommandsWriteOnlyTheirOperands := by
  intro i s t h
  obtain ⟨hcfg, hrst, hhost, hturns, hwerr⟩ := exec_machineKept h
  obtain ⟨hregs, hbuf⟩ := exec_operandsKept h
  exact ⟨hcfg, hrst, hhost, hturns, hwerr, hregs.ctrl, hregs.len, hregs.keys, hregs.ss, hregs.subkey, hregs.otk,
    hregs.cursor, hregs.cursorKey, hbuf.buf, hbuf.tagSlot, hbuf.message, hbuf.rest⟩

end Sys2Proof.Machine
end

section
/-! Proofs about SEAL and OPEN of one box on two machines (spec/44_box.md R191, R192). -/

namespace Sys2Proof.Machine

/-- Two sets of operands agree on what the box's keystream and the checks before it are made from: the two sides of
one box. -/
structure Operands.SameBoxKeys (d d' : Operands) : Prop where
  ctrl : d.ctrl = d'.ctrl
  len : d.len = d'.len
  nonce : d.nonce = d'.nonce
  sharedSecret : d.sharedSecret = d'.sharedSecret

namespace Operands.SameBoxKeys

variable {d d' : Operands}

theorem boxStream (h : d.SameBoxKeys d') : d.boxStream = d'.boxStream := by
  rw [Operands.boxStream, Operands.boxStream, Operands.noncePrefix, Operands.noncePrefix, Operands.nonceSuffix,
    Operands.nonceSuffix, h.ctrl, h.len, h.nonce, h.sharedSecret]

theorem lowOrder_iff (h : d.SameBoxKeys d') : d.lowOrder ↔ d'.lowOrder := by
  rw [Operands.lowOrder, Operands.lowOrder, h.ctrl, h.sharedSecret]

theorem overLong_iff (h : d.SameBoxKeys d') (cfg : Params) : d.overLong cfg ↔ d'.overLong cfg := by
  rw [Operands.overLong, Operands.overLong, h.len]

end Operands.SameBoxKeys

/-- The operands with the box that SEAL makes of them in BUF (R184). -/
def Operands.sealed (d : Operands) : Operands :=
  (d.withTag (poly1305 (boxOtk d.boxStream) (boxCipher d d.boxStream))).withMessage (boxCipher d d.boxStream)

/-- SEAL that completes with ERR = 0 found LEN in range and a secret it accepts, and left the box. -/
theorem runCommand_sealBox_inv {s t : State} (h : s.runCommand .sealBox = .next t) (herr : t.core.err = .ok) :
    ¬ s.core.data.overLong s.cfg ∧ ¬ s.core.data.lowOrder ∧ t.core.data = s.core.data.sealed := by
  obtain ⟨d, hbody, rfl⟩ := runCommand_inv h herr
  obtain ⟨hlen, hlow, _, _, rfl, rfl, rfl⟩ := sealBody_ok hbody
  exact ⟨hlen, hlow, rfl⟩

/-- The message slice of a box is the ciphertext. -/
theorem Operands.sealed_message (d : Operands) : d.sealed.message = boxCipher d d.boxStream :=
  Operands.message_withMessage (d := d.withTag _) (boxCipher_boxStream_length d)

/-- The tag slot of a box is the tag of the ciphertext. -/
theorem Operands.sealed_tagSlot (d : Operands) :
    d.sealed.tagSlot = (poly1305 (boxOtk d.boxStream) (boxCipher d d.boxStream)).toList := by
  have hslot := Memory.slice_writeSlice d.buf 0 (poly1305 (boxOtk d.boxStream) (boxCipher d d.boxStream)).toList
  rw [Vector.length_toList] at hslot
  rw [← hslot]
  exact Memory.slice_writeSlice_out _ 16 _ 0 16 (.inl le_rfl)

/-- Equal slices hold equal bytes. -/
theorem Memory.read_of_slice_eq {m m' : Memory} {start n : Nat} (h : m.slice start n = m'.slice start n) {j : Nat}
    (hj : j < n) : m.read (start + j) = m'.read (start + j) := by
  have hbytes : (m.slice start n)[j]? = (m'.slice start n)[j]? := by rw [h]
  simpa [hj] using hbytes

section
variable {d r : Operands} (hkeys : r.SameBoxKeys d)
  (hmessage : ∀ j < d.len.toNat, r.buf.read (16 + j) = d.sealed.buf.read (16 + j))
include hkeys hmessage

/-- The other side reads the ciphertext as its message. -/
theorem message_of_sealed : r.message = boxCipher d d.boxStream := by
  rw [← d.sealed_message, Operands.message, Operands.length, hkeys.len]
  exact Memory.slice_congr hmessage

/-- The tag the other side recomputes is the one SEAL wrote. -/
theorem recomputedTag_of_sealed : r.recomputedTag.toList = d.sealed.tagSlot := by
  have hct : r.buf.slice 16 r.len.toNat = boxCipher d d.boxStream := message_of_sealed hkeys hmessage
  rw [d.sealed_tagSlot, Operands.recomputedTag, hct, hkeys.boxStream]
  rfl

/-- The other side's decryption undoes the encryption: both combine with one keystream. -/
theorem boxCipher_of_sealed : boxCipher r r.boxStream = d.message := by
  rw [boxCipher, message_of_sealed hkeys hmessage, hkeys.boxStream]
  exact xorBytes_cancel _ _ (by simp [Operands.boxStream])

/-- The received tag is wrong exactly where it is not the one SEAL wrote. -/
theorem tagDiffers_of_sealed_iff : r.tagDiffers ↔ ∃ a < 16, r.buf.read a ≠ d.sealed.buf.read a := by
  rw [Operands.tagDiffers, recomputedTag_of_sealed hkeys hmessage]
  constructor
  · intro hne
    by_contra hsame
    simp only [not_exists, not_and, not_not] at hsame
    exact hne (Memory.slice_congr fun j hj => by simpa using (hsame j hj).symm)
  · rintro ⟨a, ha, hne⟩ heq
    exact hne (by simpa using (Memory.read_of_slice_eq heq ha).symm)

end

/-- Settles O42: the tag verifies, and combining twice with one keystream gives the plaintext back. -/
theorem openUndoesSeal : Obligations.OpenUndoesSeal := by
  intro s t r hseal herr hcfg hctrl hlen hnonce hsecret hbox
  obtain ⟨hfits, hlow, hdata⟩ := runCommand_sealBox_inv hseal herr
  rw [hdata] at hbox
  have hkeys : r.core.data.SameBoxKeys s.core.data := ⟨hctrl, hlen, hnonce, hsecret⟩
  have hmessage : ∀ j < s.core.data.len.toNat,
      r.core.data.buf.read (16 + j) = s.core.data.sealed.buf.read (16 + j) :=
    fun j hj => hbox (16 + j) (by omega)
  have htag : ¬ r.core.data.tagDiffers := by
    rw [tagDiffers_of_sealed_iff hkeys hmessage]
    rintro ⟨a, ha, hne⟩
    exact hne (hbox a (by omega))
  have hbody := openBody_of_verified (cfg := r.cfg) r.core.data
    (by rwa [hcfg, hkeys.overLong_iff]) (by rwa [hkeys.lowOrder_iff]) htag
  rw [boxCipher_of_sealed hkeys hmessage] at hbody
  refine ⟨_, runCommand_ok (i := .openBox) hbody, rfl, fun j hj => ?_⟩
  rw [State.completedWith_data, Operands.withMessage_read_in _ _ (by simpa using hj)]
  simp only [Operands.message, Memory.slice_getElem]

/-- Settles O43: the recomputed tag is the one SEAL wrote, which the received one is not. -/
theorem openRejectsAFlippedTag : Obligations.OpenRejectsAFlippedTag := by
  intro s t r hseal herr hcfg hctrl hlen hnonce hsecret hmessage htag
  obtain ⟨hfits, hlow, hdata⟩ := runCommand_sealBox_inv hseal herr
  rw [hdata] at hmessage htag
  have hkeys : r.core.data.SameBoxKeys s.core.data := ⟨hctrl, hlen, hnonce, hsecret⟩
  exact runCommand_error (i := .openBox) (openBody_of_tagDiffers r.core.data
    (by rwa [hcfg, hkeys.overLong_iff]) (by rwa [hkeys.lowOrder_iff])
    ((tagDiffers_of_sealed_iff hkeys hmessage).mpr htag))

end Sys2Proof.Machine
end

section
/-! Proofs about the curve's arithmetic (spec/40_key_agreement.md): the bits of a clamped scalar (R106), the field
operations (R108) and the ladder at u = 0 (R116). -/

namespace Sys2Proof.Machine

/-! ## The bits of a clamped scalar (R106) -/

/-- Bit 8i+j of a string's integer is bit j of its byte i (R9). -/
theorem le_testBit (l : List Byte) {i j : Nat} (hi : i < l.length) (hj : j < 8) :
    (le l).testBit (8 * i + j) = l[i].getLsbD j := by
  have hbyte : (le l / 2 ^ (8 * i) % 2 ^ 8).testBit j = l[i].getLsbD j := congrArg (Nat.testBit · j) (le_byte l i hi)
  rw [← hbyte, Nat.testBit_mod_two_pow, Nat.testBit_div_two_pow, Nat.add_comm j]
  simp [hj]

/-- A clamped scalar bit by bit: bit 8i+j is bit j of byte i (R106). -/
theorem clamp25519_getLsbD (K : Bytes 32) {i j : Nat} (hi : i < 32) (hj : j < 8) :
    (clamp25519 K)[i].getLsbD j =
      (if 8 * i + j = 254 then true
       else if 8 * i + j = 0 ∨ 8 * i + j = 1 ∨ 8 * i + j = 2 ∨ 8 * i + j = 255 then false
       else K[i].getLsbD j) := by
  rw [clamp25519_getElem]
  by_cases hset : 8 * i + j = 254
  · obtain ⟨rfl, rfl⟩ : i = 31 ∧ j = 6 := by omega
    rw [if_pos hset, if_pos rfl, clampHigh_getLsbD _ hj]
    simp
  rw [if_neg hset]
  by_cases hclear : 8 * i + j = 0 ∨ 8 * i + j = 1 ∨ 8 * i + j = 2 ∨ 8 * i + j = 255
  · rw [if_pos hclear]
    by_cases hlast : i = 31
    · obtain ⟨rfl, rfl⟩ : i = 31 ∧ j = 7 := by omega
      rw [if_pos rfl, clampHigh_getLsbD _ hj]
      simp
    · obtain ⟨rfl, hlow⟩ : i = 0 ∧ ¬ 3 ≤ j := by omega
      rw [if_neg hlast, if_pos rfl, clampLow_getLsbD _ hj]
      simp [hlow]
  · rw [if_neg hclear]
    split
    · next hlast =>
      subst hlast
      have hkept : j < 7 ∧ j ≠ 6 := by omega
      rw [clampHigh_getLsbD _ hj]
      simp [hkept]
    · split
      · next hfirst =>
        subst hfirst
        have hkept : 3 ≤ j := by omega
        rw [clampLow_getLsbD _ hj]
        simp [hkept]
      · rfl

/-- Settles O22: bit b is bit b mod 8 of byte b div 8. -/
theorem clampingFixesFiveBits : Obligations.ClampingFixesFiveBits := by
  intro K b hb
  obtain ⟨i, j, hi, hj, rfl⟩ : ∃ i j, i < 32 ∧ j < 8 ∧ b = 8 * i + j := ⟨b / 8, b % 8, by omega, by omega, by omega⟩
  rw [le_testBit _ (by simpa using hi) hj, le_testBit _ (by simpa using hi) hj, Vector.getElem_toList,
    Vector.getElem_toList, clamp25519_getLsbD K hi hj]

/-! ## The field operations (R108) -/

/-- Squaring computes the power, where the exponent has no more bits than it takes squarings. -/
theorem powMod_eq (m bits a e : Nat) (he : e < 2 ^ bits) : powMod m bits a e = a ^ e % m := by
  induction bits generalizing a e with
  | zero =>
    have hzero : e = 0 := by simpa using he
    rw [hzero, powMod, pow_zero]
  | succ bits ih =>
    have hhalf : powMod m bits (a * a % m) (e / 2) = (a * a) ^ (e / 2) % m := by
      rw [ih _ _ (by omega), ← Nat.pow_mod]
    rw [powMod, hhalf]
    rcases Nat.mod_two_eq_zero_or_one e with heven | hodd
    · have hsplit : a ^ e = (a * a) ^ (e / 2) := by rw [← pow_two, ← pow_mul, Nat.mul_div_cancel' (by omega)]
      simp [heven, hsplit]
    · have hsplit : a ^ e = a * (a * a) ^ (e / 2) := by
        rw [← pow_two, ← pow_mul, ← pow_succ', show 2 * (e / 2) + 1 = e by omega]
      simp [hodd, hsplit, Nat.mul_mod]

theorem finv_eq_pow (a : Nat) : finv a = a ^ (p25519 - 2) % p25519 := by
  rw [finv, powMod_eq _ _ _ _ (lt_of_le_of_lt (Nat.sub_le _ _) p25519_lt)]

theorem powMod_zero {m bits e : Nat} (hpos : 0 < e) (he : e < 2 ^ bits) : powMod m bits 0 e = 0 := by
  rw [powMod_eq m bits 0 e he, zero_pow hpos.ne', Nat.zero_mod]

theorem finv_zero : finv 0 = 0 := by
  have hpos : 0 < p25519 - 2 := by norm_num [p25519]
  rw [finv, powMod_zero hpos (lt_of_le_of_lt (Nat.sub_le _ _) p25519_lt)]

theorem fsub_cast_int (a b : Nat) : (fsub a b : Int) = ((a : Int) - b) % p25519 :=
  Int.toNat_of_nonneg (Int.emod_nonneg _ (by exact_mod_cast p25519_pos.ne'))

/-- The difference undoes the addition of a field element. -/
theorem fsub_add_mod {a : Nat} (b : Nat) (ha : a < p25519) : (fsub a b + b) % p25519 = a := by
  have hint : ((fsub a b : Int) + b) % p25519 = a := by
    rw [fsub_cast_int, Int.emod_add_emod, Int.sub_add_cancel]
    exact Int.emod_eq_of_lt (by omega) (by exact_mod_cast ha)
  exact_mod_cast hint

/-- Settles O24: the sum and the product are defined as residues, the inverse is a power and the difference is exact. -/
theorem fieldOperationsAreExact : Obligations.FieldOperationsAreExact :=
  ⟨finv_eq_pow, finv_zero, fun a b ha _ => ⟨rfl, rfl, fsub_lt a b, fsub_add_mod b ha⟩⟩

/-! ## The point u = 0 (R116) -/

/-- The field operations in the ring of integers mod p25519. -/
theorem fadd_cast (a b : Nat) : (fadd a b : ZMod p25519) = a + b := by
  rw [fadd, ZMod.natCast_mod, Nat.cast_add]

theorem fmul_cast (a b : Nat) : (fmul a b : ZMod p25519) = a * b := by
  rw [fmul, ZMod.natCast_mod, Nat.cast_mul]

theorem fsub_cast (a b : Nat) : (fsub a b : ZMod p25519) = a - b := by
  have hint := congrArg (Int.cast : Int → ZMod p25519) (fsub_cast_int a b)
  simpa only [Int.cast_natCast, ZMod.intCast_mod, Int.cast_sub] using hint

/-- (x + z)² and (x - z)² are one field element where x or z is 0. -/
theorem fsub_squares_eq_zero {x z : Nat} (h : x * z = 0) :
    fsub (fmul (fadd x z) (fadd x z)) (fmul (fsub x z) (fsub x z)) = 0 := by
  have hxz : (x : ZMod p25519) * z = 0 := by rw [← Nat.cast_mul, h, Nat.cast_zero]
  have hcast : (fsub (fmul (fadd x z) (fadd x z)) (fmul (fsub x z) (fsub x z)) : ZMod p25519) = 0 := by
    simp only [fsub_cast, fmul_cast, fadd_cast]
    calc ((x : ZMod p25519) + z) * (x + z) - (x - z) * (x - z) = 4 * (x * z) := by ring
      _ = 0 := by rw [hxz, mul_zero]
  exact Nat.eq_zero_of_dvd_of_lt ((ZMod.natCast_eq_zero_iff _ _).mp hcast) (fsub_lt _ _)

/-- Each of the ladder's two fractions has a zero above or below. -/
def Ladder.Degenerate (l : Ladder) : Prop := l.x2 * l.z2 = 0 ∧ l.x3 * l.z3 = 0

theorem Ladder.Degenerate.swap {l : Ladder} (h : l.Degenerate) (b : Bool) : (ladderSwap b l).Degenerate := by
  cases b with
  | false => exact h
  | true => exact And.symm h

/-- Where both z are 0, a swap keeps them so. -/
theorem ladderSwap_z_eq_zero {l : Ladder} (h2 : l.z2 = 0) (h3 : l.z3 = 0) (b : Bool) : (ladderSwap b l).z2 = 0 := by
  cases b with
  | false => exact h2
  | true => exact h3

/-- At u = 0 one iteration on degenerate values makes both z zero: the doubled z has the factor (x+z)² - (x-z)², and the
added one the factor u. -/
theorem ladderIter_zero_z {l : Ladder} (h : l.Degenerate) (kt : Bool) :
    (ladderIter 0 kt l).z2 = 0 ∧ (ladderIter 0 kt l).z3 = 0 := by
  obtain ⟨hfirst, _⟩ := h.swap (l.swap ^^ kt)
  simp only [ladderIter, ladderArith, fsub_squares_eq_zero hfirst, zero_fmul, and_self]

/-- At u = 0 both z are zero after the first iteration on, whatever the scalar's bits are. -/
theorem ladderLoop_zero_z (k t : Nat) {l : Ladder} (h : l.Degenerate) :
    (ladderLoop k 0 (t + 1) l).z2 = 0 ∧ (ladderLoop k 0 (t + 1) l).z3 = 0 := by
  induction t generalizing l with
  | zero => exact ladderIter_zero_z h _
  | succ t ih =>
    obtain ⟨hz2, hz3⟩ := ladderIter_zero_z h (k.testBit (t + 1))
    rw [ladderLoop_succ]
    exact ih ⟨by rw [hz2, Nat.mul_zero], by rw [hz3, Nat.mul_zero]⟩

/-- A fraction with 0 below is 0 (R108). -/
theorem fmul_finv_zero (a : Nat) : fmul a (finv 0) = 0 := by
  rw [finv_zero, fmul_zero]

/-- The ladder ends with a division by 0, which gives 0 (R108). -/
theorem ladder_zero (k : Nat) : ladder k 0 = 0 := by
  have hstart : Ladder.Degenerate { x2 := 1, z2 := 0, x3 := 0, z3 := 1, swap := false } := ⟨rfl, rfl⟩
  obtain ⟨hz2, hz3⟩ := ladderLoop_zero_z k 254 hstart
  unfold ladder
  generalize ladderLoop k 0 255 _ = l at *
  change fmul (ladderSwap l.swap l).x2 (finv (ladderSwap l.swap l).z2) = 0
  rw [ladderSwap_z_eq_zero hz2 hz3, fmul_finv_zero]

/-- The string of the integer 0 is all zero (R8, R9). -/
theorem leBytes_zero (n : Nat) : leBytes n 0 = zeroBytes n := by
  apply Vector.ext
  intro i hi
  simp [zeroBytes]

/-- Settles O26: the ladder's result is 0 for every scalar. -/
theorem zeroPointGivesZeroForEveryScalar : Obligations.ZeroPointGivesZeroForEveryScalar := by
  intro K U hU
  rw [x25519_eq, hU, ladder_zero, leBytes_zero]

end Sys2Proof.Machine
end

section
/-! Proofs about the tag (spec/43_poly1305.md): the accumulation as a polynomial evaluated at r (R165, R169, R170), and
the tag where it is 0 (R173). -/

namespace Sys2Proof.Machine

/-- The accumulator after a message's blocks (R169). -/
def polyAcc (otk : Bytes 32) (m : List Byte) : Nat := (polyBlocks m).foldl (polyStep (polyR otk)) 0

theorem poly1305_eq (otk : Bytes 32) (m : List Byte) :
    poly1305 otk m = leBytes 16 ((polyAcc otk m + polyS otk) % 2 ^ 128) := by
  rw [poly1305]
  rfl

/-- Horner's rule: folding the blocks evaluates the polynomial whose coefficients they are, the accumulator leading. -/
theorem foldl_polyStep_mod (r acc : Nat) (blocks : List (List Byte)) :
    blocks.foldl (polyStep r) acc % p1305 =
      (acc * r ^ blocks.length +
        ∑ i : Fin blocks.length, polyBlockInt blocks[i] * r ^ (blocks.length - i.val)) % p1305 := by
  induction blocks generalizing acc with
  | nil => simp
  | cons c blocks ih =>
    have hterms : ∑ i : Fin (c :: blocks).length,
          polyBlockInt (c :: blocks)[i] * r ^ ((c :: blocks).length - i.val) =
        polyBlockInt c * r ^ (blocks.length + 1) +
          ∑ i : Fin blocks.length, polyBlockInt blocks[i] * r ^ (blocks.length - i.val) := by
      simp [Fin.sum_univ_succ]
    have hlead : polyStep r acc c * r ^ blocks.length ≡
        (acc + polyBlockInt c) * r * r ^ blocks.length [MOD p1305] := (Nat.mod_modEq _ _).mul_right _
    rw [List.foldl_cons, ih, hterms]
    refine (hlead.add_right _).trans (congrArg (· % p1305) ?_)
    rw [List.length_cons]
    ring

/-- The accumulator is always reduced. -/
theorem foldl_polyStep_lt {r acc : Nat} (hacc : acc < p1305) (blocks : List (List Byte)) :
    blocks.foldl (polyStep r) acc < p1305 := by
  induction blocks generalizing acc with
  | nil => exact hacc
  | cons c blocks ih => exact ih (polyStep_lt r acc c)

theorem polyAcc_eq_sum (otk : Bytes 32) (m : List Byte) :
    polyAcc otk m =
      (∑ i : Fin (polyBlocks m).length,
        polyBlockInt (polyBlocks m)[i] * polyR otk ^ ((polyBlocks m).length - i.val)) % p1305 := by
  have hlt : polyAcc otk m < p1305 := foldl_polyStep_lt (by norm_num [p1305]) _
  have heval := foldl_polyStep_mod (polyR otk) 0 (polyBlocks m)
  rw [Nat.zero_mul, Nat.zero_add] at heval
  rw [← heval]
  exact (Nat.mod_eq_of_lt hlt).symm

/-- Settles O38: the accumulator is the polynomial's value, and the tag is its sum with s. -/
theorem tagIsAPolynomialEvaluation : Obligations.TagIsAPolynomialEvaluation := by
  intro otk m
  rw [poly1305_eq, le_leBytes_of_lt (Nat.mod_lt _ (by norm_num)), polyAcc_eq_sum]
  rfl

/-- With r = 0 every block leaves the accumulator 0. -/
theorem foldl_polyStep_zero (blocks : List (List Byte)) : blocks.foldl (polyStep 0) 0 = 0 := by
  induction blocks with
  | nil => rfl
  | cons c blocks ih => rw [List.foldl_cons, polyStep, Nat.mul_zero, Nat.zero_mod, ih]

theorem polyAcc_eq_zero {otk : Bytes 32} {m : List Byte} (h : m = [] ∨ polyR otk = 0) : polyAcc otk m = 0 := by
  rcases h with rfl | hr
  · rfl
  · rw [polyAcc, hr, foldl_polyStep_zero]

/-- s is the integer of 16 bytes, which are its string again. -/
theorem leBytes_polyS (otk : Bytes 32) : (leBytes 16 (polyS otk)).toList = otk.toList.drop 16 := by
  have hhalf : (bytesOfList 16 (otk.toList.drop 16)).toList = otk.toList.drop 16 := bytesOfList_toList (by simp)
  rw [polyS, ← hhalf, leBytes_le]

theorem polyS_lt (otk : Bytes 32) : polyS otk < 2 ^ 128 := by
  simpa [polyS] using le_lt (otk.toList.drop 16)

/-- Settles O39: the accumulator is 0, so the tag is s. -/
theorem tagOfNothingIsTheSecondHalf : Obligations.TagOfNothingIsTheSecondHalf := by
  intro otk m h
  rw [poly1305_eq, polyAcc_eq_zero h, Nat.zero_add, Nat.mod_eq_of_lt (polyS_lt otk), leBytes_polyS]

end Sys2Proof.Machine
end

section
/-! Proofs about the host port (spec/10_state.md, spec/20_memory.md): writes and reads by offset, what cannot be read,
and accesses outside the window; and about WAIT (spec/30_encoding.md R101) and `irq` (spec/60_exceptions.md R216). -/

namespace Sys2Proof.Machine

/-! ## Outside the window (R66) -/

/-- A write at or past the window's end meets no CORE. -/
theorem transact_memWrite_outside (c : CoreState) {cfg : Params} {off : Nat} (v : Word) (h : cfg.windowBytes ≤ off) :
    c.transact cfg (memWrite cfg off v) = none := by
  have hnone : windowOffset cfg (cfg.base + off) = none := by simp [windowOffset, h]
  simp [CoreState.transact, memWrite, hnone]

/-- The host's step at a WR that the CORE does not answer. -/
theorem hostStep_wr_outside {s : State} {off : Nat} {v : Word} (hprog : s.host.prog[s.host.pc]? = some (.wr off v))
    (h : s.cfg.windowBytes ≤ off) : hostStep s = .fault .outsideWindow := by
  simp [hostStep, hprog, transact_memWrite_outside s.core v h]

/-- Settles O46: with no turn listed and the CORE idle, the step is the host's, and a fault is not changed by `rst`. -/
theorem accessOutsideTheWindowStops : Obligations.AccessOutsideTheWindowStops := by
  intro s off v hturns hidle hprog houtside
  rw [step, hturns]
  simp [hidle, hostStep_wr_outside hprog houtside]

/-! ## STATUS (R26) -/

/-- A write to STATUS as two conditional clears. -/
theorem writeStatus_eq (c : CoreState) (v : Word) :
    c.writeStatus v = { c with
      done := if v.getLsbD 1 then false else c.done
      werr := if v.getLsbD 2 then false else c.werr } := by
  rw [CoreState.writeStatus]
  cases v.getLsbD 1 <;> cases v.getLsbD 2 <;> simp

/-- Settles O49: offset 0x00C is STATUS's, which takes a write busy or not. -/
theorem statusWriteClearsNamedBits : Obligations.StatusWriteClearsNamedBits := by
  intro c cfg v
  obtain ⟨-, -, hstatus, -⟩ := portAt_word
  rw [transact_memWrite c v rfl (lt_windowBytes (by decide)), hstatus, writePort_status, writeStatus_eq]

/-! ## Writes while BUSY = 0 (R23, R33, R69) -/

/-- While BUSY = 0 a write reaches its port. -/
theorem writePort_of_idle {c : CoreState} (hidle : c.busy = false) (v : Word) (p : Port) :
    c.writePort v p = c.writeIdle v p := by
  rcases writePort_cases c v p with ⟨rfl, hwrite⟩ | ⟨_, hbusy, _⟩ | ⟨_, _, hwrite⟩
  · rw [hwrite, CoreState.writeIdle]
  · exact absurd (hidle.symm.trans hbusy) Bool.false_ne_true
  · exact hwrite

/-- A write to a port that ignores it leaves the CORE. -/
theorem transact_ignored_write {c : CoreState} {cfg : Params} {a : Nat} {p : Port} (v : Word) (hidle : c.busy = false)
    (h4 : a % 4 = 0) (hlt : a < 0x1000) (hport : portAt a = p) (hignored : c.writeIdle v p = c) :
    c.transact cfg (memWrite cfg a v) = some { core := c, data := 0, resp := .okay } := by
  rw [transact_memWrite c v h4 (lt_windowBytes hlt), hport, writePort_of_idle hidle, hignored]

/-- Settles O54: four words that ignore writes, and the reserved offsets. -/
theorem readOnlyAndReservedOffsetsIgnoreWrites : Obligations.ReadOnlyAndReservedOffsetsIgnoreWrites := by
  intro c cfg a v hidle h4
  obtain ⟨hid, -, -, -, -, hbufsz, hksoffLo, hksoffHi⟩ := portAt_word
  refine ⟨fun hreadOnly => ?_, fun hreserved => ?_⟩
  · rcases hreadOnly with rfl | rfl | rfl | rfl
    · exact transact_ignored_write v hidle h4 (by decide) hid rfl
    · exact transact_ignored_write v hidle h4 (by decide) hbufsz rfl
    · exact transact_ignored_write v hidle h4 (by decide) hksoffLo rfl
    · exact transact_ignored_write v hidle h4 (by decide) hksoffHi rfl
  · have hlt : a < 0x1000 := by omega
    have hport : portAt a = .reserved := portAt_reserved (by simp; omega)
    have hzero : c.readPort cfg .reserved = 0 := by simp [CoreState.readPort, CoreState.readIdle]
    refine ⟨transact_ignored_write v hidle h4 hlt hport rfl, ?_⟩
    rw [transact_memRead c h4 (lt_windowBytes hlt), hport, hzero]

/-! ## A written word (R33, R34, R61, R69) -/

/-- A write to any port but CMD leaves the CORE idle, so that the port shows its new value. -/
theorem view_writeIdle {c : CoreState} {p : Port} {a : Nat} (cfg : Params) (v : Word) (hidle : c.busy = false)
    (hport : portAt a = p) (hcmd : p ≠ .cmd) :
    (c.writeIdle v (portAt a)).view cfg a = (c.writeIdle v p).readIdle cfg p := by
  have hstillIdle : (c.writeIdle v p).busy = false := by rw [CoreState.busy, writeIdle_pending hcmd]; exact hidle
  rw [hport, CoreState.view_of_not_busy hstillIdle, hport]

/-- A word write at an aligned byte offset of an array stores the word there (R61). -/
theorem wordStored_of_aligned {n o : Nat} (b : Bytes n) (v : Word) (ho : o % 4 = 0) (h : o + 4 ≤ n) :
    wordStored b (bytesSetWord b (o / 4) v) o v := by
  have hstored := wordStored_bytesSetWord b (o / 4) v (by omega)
  rwa [Nat.mul_div_cancel' (Nat.dvd_of_mod_eq_zero ho)] at hstored

/-- A write at the aligned index o of a byte array, whose word the port p writes and reads, stores the word there,
changes nothing else and reads back. -/
theorem array_write_reads_back {c : CoreState} {cfg : Params} {p : Port} {a n o : Nat} {b : Bytes n} {v : Word}
    (store : Bytes n → Operands) (hidle : c.busy = false) (hport : portAt a = p) (hcmd : p ≠ .cmd)
    (hwrite : c.writeIdle v p = c.withData (store (bytesSetWord b (o / 4) v)))
    (hread : ∀ b', (c.withData (store b')).readIdle cfg p = w32 b'.toList (o / 4)) (ho : o % 4 = 0) (h : o + 4 ≤ n) :
    ∃ b', wordStored b b' o v ∧ c.writeIdle v (portAt a) = c.withData (store b') ∧
      (c.writeIdle v (portAt a)).view cfg a = v := by
  refine ⟨bytesSetWord b (o / 4) v, wordStored_of_aligned b v ho h, by rw [hport, hwrite], ?_⟩
  rw [view_writeIdle cfg v hidle hport hcmd, hwrite, hread, w32_bytesSetWord b _ v (by omega)]

/-- A write at an offset of BUF stores the word there, changes nothing else and reads back. -/
theorem buf_write_reads_back {c : CoreState} {cfg : Params} {a : Nat} (v : Word) (hidle : c.busy = false)
    (h4 : a % 4 = 0) (hlow : 0x1000 ≤ a) :
    ∃ m : Memory, m.draw = c.data.buf.draw ∧
      (∀ k < 4, m.read (a - 0x1000 + k) = v.extractLsb' (8 * k) 8) ∧
      (∀ i, i < a - 0x1000 ∨ a - 0x1000 + 4 ≤ i → m.read i = c.data.buf.read i) ∧
      c.writeIdle v (portAt a) = c.withData { c.data with buf := m } ∧ (c.writeIdle v (portAt a)).view cfg a = v := by
  have hplace : 4 * ((a - 0x1000) / 4) = a - 0x1000 := by omega
  refine ⟨c.data.buf.writeWord ((a - 0x1000) / 4) v, Memory.writeWord_draw _ _ _, fun k hk => ?_, fun i hi => ?_,
    by rw [portAt_buf hlow]; rfl, ?_⟩
  · rw [← Memory.read_writeWord_in c.data.buf _ k v hk, hplace]
  · exact Memory.read_writeWord_out _ _ (by omega)
  · rw [view_writeIdle cfg v hidle (portAt_buf hlow) nofun]
    exact Memory.readWord_writeWord _ _ _

/-- Settles O53, by the row of the register map that the offset stands in. -/
theorem writtenWordReadsBack : Obligations.WrittenWordReadsBack := by
  intro c cfg a v hidle h4 hlt
  obtain ⟨-, hctrl, -, -, hlen, -⟩ := portAt_word
  refine ⟨_, transact_memWrite c v h4 hlt, rfl, rfl, ?_⟩
  simp only [writePort_of_idle hidle]
  refine ⟨?ctrl, ?len, ?sk,
    fun hlow hhigh => array_write_reads_back (fun b => { c.data with pk := b }) hidle (portAt_pk hlow hhigh) nofun rfl
      (fun _ => rfl) (by omega) (by omega),
    fun hlow hhigh => array_write_reads_back (fun b => { c.data with nonce := b }) hidle (portAt_nonce hlow hhigh) nofun
      rfl (fun _ => rfl) (by omega) (by omega),
    fun hlow hhigh => array_write_reads_back (fun b => { c.data with ss := b }) hidle (portAt_ss hlow hhigh) nofun rfl
      (fun _ => rfl) (by omega) (by omega),
    fun hlow hhigh => array_write_reads_back (fun b => { c.data with subkey := b }) hidle (portAt_subkey hlow hhigh)
      nofun rfl (fun _ => rfl) (by omega) (by omega),
    fun hlow hhigh => array_write_reads_back (fun b => { c.data with otk := b }) hidle (portAt_otk hlow hhigh) nofun rfl
      (fun _ => rfl) (by omega) (by omega),
    buf_write_reads_back v hidle h4⟩
  case ctrl =>
    rintro rfl
    exact ⟨by rw [hctrl]; rfl, (view_writeIdle cfg v hidle hctrl nofun).trans (Ctrl.toWord_ofWord v)⟩
  case len =>
    rintro rfl
    exact ⟨by rw [hlen]; rfl, view_writeIdle cfg v hidle hlen nofun⟩
  case sk =>
    intro hlow hhigh
    exact ⟨_, wordStored_of_aligned _ v (by omega) (by omega), by rw [portAt_sk hlow hhigh]; rfl,
      view_writeIdle cfg v hidle (portAt_sk hlow hhigh) nofun⟩

/-! ## What cannot be read (R34, R44, R46) -/

/-- Two COREs that agree but for what is hidden read the same at every port. -/
theorem CoreState.sameButSecrets.readIdle_eq {c c' : CoreState} (h : c.sameButSecrets c') (cfg : Params) (p : Port) :
    c.readIdle cfg p = c'.readIdle cfg p := by
  obtain ⟨heq, hbusy⟩ := h
  simp only [CoreState.mk.injEq, Operands.mk.injEq, Cursor.mk.injEq, true_and, and_true] at heq
  obtain ⟨⟨hctrl, hlen, hpk, hnonce, hss, hsubkey, hotk, ⟨hcur, hoff⟩, hbuf⟩, hdone, hwerr, herr⟩ := heq
  cases p with
  | status => simp only [CoreState.readIdle, CoreState.statusWord, herr, hcur, hwerr, hdone, hbusy]
  | id | cmd | bufsz | sk | reserved => rfl
  | ctrl => simp only [CoreState.readIdle, hctrl]
  | len => simp only [CoreState.readIdle, hlen]
  | ksoffLo => simp only [CoreState.readIdle, hoff]
  | ksoffHi => simp only [CoreState.readIdle, hoff]
  | pk j => simp only [CoreState.readIdle, hpk]
  | nonce j => simp only [CoreState.readIdle, hnonce]
  | ss j => simp only [CoreState.readIdle, hss]
  | subkey j => simp only [CoreState.readIdle, hsubkey]
  | otk j => simp only [CoreState.readIdle, hotk]
  | buf j => simp only [CoreState.readIdle, hbuf]

/-- Settles O52: no port's word depends on what is hidden, and SK's ports read 0. -/
theorem secretsAreNotReadable : Obligations.SecretsAreNotReadable := by
  refine ⟨fun c c' cfg a h => ?_, fun c cfg a hlow hhigh => ?_⟩
  · have hbusy : c.busy = c'.busy := h.2
    rw [CoreState.view, CoreState.view, CoreState.readPort, CoreState.readPort, hbusy, h.readIdle_eq]
  · rw [CoreState.view, portAt_sk hlow hhigh, CoreState.readPort, CoreState.readIdle, ite_self]

/-! ## WAIT (R101) -/

/-- The host's step at an RD of STATUS: the name gets the word of STATUS, and the CORE stays. -/
theorem hostStep_rd_status {s : State} {name : Nat} (hprog : s.host.prog[s.host.pc]? = some (.rd 0x00C name)) :
    hostStep s = .next { s with host := s.host.gotWord name s.core.statusWord .okay } := by
  obtain ⟨-, -, hstatus, -⟩ := portAt_word
  have hread : s.core.readPort s.cfg .status = s.core.statusWord := readPort_of_readable rfl _ _
  simp only [hostStep, hprog, transact_memRead s.core (cfg := s.cfg) (a := 0x00C) rfl (lt_windowBytes (by decide)),
    hstatus, hread]

/-- The host's step at a BNZ whose masked bits are all 0 moves on to the next line. -/
theorem hostStep_bnz_zero {s : State} {name target : Nat} {mask : Word}
    (hprog : s.host.prog[s.host.pc]? = some (.bnz name mask target)) (hzero : s.host.word name &&& mask = 0) :
    hostStep s = .next { s with host := s.host.goto (s.host.pc + 1) } := by
  simp only [hostStep, hprog, hzero, if_true]

/-- The name an RD gave a word stands for it. -/
theorem HostAgent.word_gotWord (h : HostAgent) (name : Nat) (v : Word) (r : Resp) :
    (h.gotWord name v r).word name = v := by
  rw [HostAgent.word, HostAgent.gotWord_names, assocGet_assocSet_same, Option.getD_some]

/-- A run goes on from the state its first step leads to. -/
theorem run_succ_of_step (M : Host.Core) {s t : M.State} (h : M.step s = .next t) (k : Nat) :
    M.run (k + 1) s = M.run k t := by
  rw [Host.Core.run, h]

/-- Settles O55: the engine completes the command, the host reads STATUS, and the untaken branch ends the loop. -/
theorem waitEnds : Obligations.WaitEnds := by
  intro s name hturns hrst hbusy hrd hbnz
  obtain ⟨p, hp⟩ := Option.isSome_iff_exists.mp hbusy
  obtain ⟨r, hengine⟩ := engineStep_eq_finish hp
  have hidle : (s.finish r).core.busy = false := s.core.complete_busy r
  have hnotBusy : (s.finish r).core.statusWord &&& 0x1 = 0 := by rw [statusWord_busy, hidle]; rfl
  have hstep₁ : step s = .next (s.finish r) := (step_of_busy hturns hrst hbusy).trans hengine
  have hstep₂ := (step_of_idle (s := s.finish r) hturns hrst hidle).trans (hostStep_rd_status hrd)
  have hname := HostAgent.word_gotWord s.host name (s.finish r).core.statusWord .okay
  have hstep₃ := (step_of_idle
    (s := { s.finish r with host := s.host.gotWord name (s.finish r).core.statusWord .okay }) hturns hrst hidle).trans
    (hostStep_bnz_zero hbnz (by rw [hname, hnotBusy]))
  have hrun := (run_succ_of_step core hstep₁ 2).trans
    ((run_succ_of_step core hstep₂ 1).trans (run_succ_of_step core hstep₃ 0))
  exact ⟨_, hrun, hidle, rfl, hname, hnotBusy⟩

/-! ## The interrupt (R216) -/

theorem CoreState.irq_eq_false_of_done {c : CoreState} (h : c.done = false) : c.irq = false := by
  rw [CoreState.irq, h, Bool.and_false]

theorem CoreState.irq_eq_false_of_ie {c : CoreState} (h : c.data.ctrl.ie = false) : c.irq = false := by
  rw [CoreState.irq, h, Bool.false_and]

/-- No command changes CTRL, so IE after a completion is IE before it. -/
theorem engineStep_ctrl {s t : State} (h : engineStep s = .next t) : t.core.data.ctrl = s.core.data.ctrl := by
  rcases engineStep_cases h with ⟨_, rfl⟩ | ⟨_, i, _, _, rfl⟩ | ⟨_, _, _, _, rfl⟩
  · rfl
  · obtain ⟨hregs, -⟩ := exec_operandsKept (exec_eq_finish i s)
    exact hregs.ctrl
  · rfl

/-- Settles O56: a completion sets DONE and keeps IE, and each of the other events clears one of the two. -/
theorem interruptFollowsCompletion : Obligations.InterruptFollowsCompletion := by
  refine ⟨fun _ => rfl, fun s p hp => ?completion, fun c v hbit => ?status, fun c v hidle => ?cmd,
    fun c v hidle hbit => ?ctrl, CoreState.rst_irq⟩
  case completion =>
    obtain ⟨r, hstep⟩ := engineStep_eq_finish hp
    have hdone : (s.finish r).core.done = true := s.core.complete_done r
    exact ⟨_, hstep, by rw [CoreState.irq, hdone, engineStep_ctrl hstep, Bool.and_true]⟩
  case status =>
    exact CoreState.irq_eq_false_of_done (by rw [writePort_status, CoreState.writeStatus_done, hbit]; simp)
  case cmd =>
    exact CoreState.irq_eq_false_of_done (by rw [writePort_cmd hidle, CoreState.accept_done])
  case ctrl =>
    exact CoreState.irq_eq_false_of_ie (by rw [writePort_of_idle hidle]; exact hbit)

end Sys2Proof.Machine
end
